-- ==== Sys2Proof/Word.lean ====
section
/-! DEFINITION. The bit widths the spec gives the block's values (00_scope.md R9; R12 for the u8, u16 and u32
of its pseudocode; 30_encoding.md R48 for the control word). -/
namespace Sys2Proof

/-- A u8: a register, an operand, a byte of memory, an accessor argument (R9, R23, R57). -/
abbrev Byte := BitVec 8

/-- A u16: the program counter and every address (R9, R19, R33). -/
abbrev Addr := BitVec 16

/-- `WIDE`, the domain in which results are computed before they are masked: u32 modulo 2^32 (R10). -/
abbrev Wide := BitVec 32

/-- The 40-bit control word that EXECUTE takes (R48). -/
abbrev CtrlWord := BitVec 40

end Sys2Proof
end

