-- ==== Sys2Proof/Config.lean ====
section
/-! DEFINITION. The implementation parameters of the block that a meaning reads (00_scope.md R9). The spec
fixes every one of them, so none is opaque. The one parameter the spec leaves OPEN, `FETCH_PC_CONVENTION` (R20,
D26), is read by no rule of the block: `pc` simply holds what the environment left in it (log entry 4). -/
namespace Sys2Proof.Config

/-- First address of the stack page 0x01 (R9, R42; the spec's decision D10). -/
def stackPage : Addr := 0x0100#16

/-- The bit of the status register that is hardwired to 1: bit 5 (R25, R26). -/
def statusFixed : Byte := 0x20#8

/-- What a byte of memory that nothing has written reads as: every byte is 0x00 at creation (R32, R44). -/
def blankByte : Byte := 0x00#8

/-- Number of bytes of the one address space (R9, R33). -/
def memorySize : Nat := 65536

end Sys2Proof.Config
end

