-- ==== Sys2Proof/Syntax.lean ====
section
/-! DEFINITION. What the block can be asked to do: the 36 instructions with their Opcode Context
(30_encoding.md R48 to R53), the accessor calls (40_register_file.md R57), RESET, and what the environment may
do between two operations (00_scope.md R5, R6). -/
namespace Sys2Proof

/-- The addressing mode `ctx.mode`; the thirteen modes of R51, in its order. -/
inductive Mode where
  | implied | accumulator | immediate | zeroPage | zeroPageX | zeroPageY | relative
  | absolute | absoluteX | absoluteY | indirect | indexedIndirect | indirectIndexed
deriving DecidableEq, Repr

/-- The Opcode Context of one EXECUTE: operand, effective address, addressing mode (R48). It is part of the
instruction, not of the state: it is discarded when the handler has run (R17, R49). -/
structure Ctx where
  operand : Byte
  ea      : Addr
  mode    : Mode
deriving DecidableEq, Repr

/-- The 36 instructions, one constructor per row of `opcode_table.json`, in the order of R50. Every control
word carries a whole context, also for a handler that ignores it (R52, R53), so every constructor does. Every
value of this type is a legal instruction: `Mode` has no fourteenth mode and no constructor stands for an
unassigned handler code; the checks of R54 are about raw words (`Fields.wellFormed`). -/
inductive Instr where
  | adc (ctx : Ctx)  -- Add with carry, binary or BCD (R76)
  | sbc (ctx : Ctx)  -- Subtract with carry-in, binary or BCD (R77)
  | asl (ctx : Ctx)  -- Arithmetic shift left by one (R82)
  | lsr (ctx : Ctx)  -- Logical shift right by one (R83)
  | cmp (ctx : Ctx)  -- Compare A with the effective address (R78)
  | cpx (ctx : Ctx)  -- Compare X with the effective address (R79)
  | cpy (ctx : Ctx)  -- Compare Y with the effective address (R80)
  | bcc (ctx : Ctx)  -- Branch if carry clear (R85)
  | bcs (ctx : Ctx)  -- Branch if carry set (R86)
  | beq (ctx : Ctx)  -- Branch if Zero set (R87)
  | bmi (ctx : Ctx)  -- Branch if Sign set (R88)
  | bne (ctx : Ctx)  -- Branch if Zero clear (R89)
  | bpl (ctx : Ctx)  -- Branch if Sign clear (R90)
  | bvc (ctx : Ctx)  -- Branch if overflow clear (R91)
  | bvs (ctx : Ctx)  -- Branch if overflow set (R92)
  | jmp (ctx : Ctx)  -- Jump (R93)
  | jsr (ctx : Ctx)  -- Jump to subroutine (R94)
  | lda (ctx : Ctx)  -- Load A (R97)
  | ldx (ctx : Ctx)  -- Load X (R98)
  | ldy (ctx : Ctx)  -- Load Y (R99)
  | sta (ctx : Ctx)  -- Store A (R100)
  | stx (ctx : Ctx)  -- Store X (R101)
  | clc (ctx : Ctx)  -- Clear carry (R104)
  | cld (ctx : Ctx)  -- Clear decimal (R105)
  | cli (ctx : Ctx)  -- Clear interrupt disable (R106)
  | clv (ctx : Ctx)  -- Clear overflow (R107)
  | sec (ctx : Ctx)  -- Set carry (R108)
  | tay (ctx : Ctx)  -- Transfer A to Y (R102)
  | tya (ctx : Ctx)  -- Transfer Y to A (R103)
  | and (ctx : Ctx)  -- Bitwise AND into A (R109)
  | ora (ctx : Ctx)  -- Bitwise OR into A (R110)
  | bit (ctx : Ctx)  -- Test bits (R111)
  | nop (ctx : Ctx)  -- No operation (R112)
  | brk (ctx : Ctx)  -- Software break (R115)
  | pla (ctx : Ctx)  -- Pull A (R116)
  | plp (ctx : Ctx)  -- Pull the status register (R117)
deriving DecidableEq, Repr

/-- The Opcode Context an instruction carries. -/
def Instr.ctx : Instr → Ctx
  | .adc ctx => ctx
  | .sbc ctx => ctx
  | .asl ctx => ctx
  | .lsr ctx => ctx
  | .cmp ctx => ctx
  | .cpx ctx => ctx
  | .cpy ctx => ctx
  | .bcc ctx => ctx
  | .bcs ctx => ctx
  | .beq ctx => ctx
  | .bmi ctx => ctx
  | .bne ctx => ctx
  | .bpl ctx => ctx
  | .bvc ctx => ctx
  | .bvs ctx => ctx
  | .jmp ctx => ctx
  | .jsr ctx => ctx
  | .lda ctx => ctx
  | .ldx ctx => ctx
  | .ldy ctx => ctx
  | .sta ctx => ctx
  | .stx ctx => ctx
  | .clc ctx => ctx
  | .cld ctx => ctx
  | .cli ctx => ctx
  | .clv ctx => ctx
  | .sec ctx => ctx
  | .tay ctx => ctx
  | .tya ctx => ctx
  | .and ctx => ctx
  | .ora ctx => ctx
  | .bit ctx => ctx
  | .nop ctx => ctx
  | .brk ctx => ctx
  | .pla ctx => ctx
  | .plp ctx => ctx

/-- The same handler with another Opcode Context. -/
def Instr.withCtx (i : Instr) (ctx : Ctx) : Instr :=
  match i with
  | .adc _ => .adc ctx
  | .sbc _ => .sbc ctx
  | .asl _ => .asl ctx
  | .lsr _ => .lsr ctx
  | .cmp _ => .cmp ctx
  | .cpx _ => .cpx ctx
  | .cpy _ => .cpy ctx
  | .bcc _ => .bcc ctx
  | .bcs _ => .bcs ctx
  | .beq _ => .beq ctx
  | .bmi _ => .bmi ctx
  | .bne _ => .bne ctx
  | .bpl _ => .bpl ctx
  | .bvc _ => .bvc ctx
  | .bvs _ => .bvs ctx
  | .jmp _ => .jmp ctx
  | .jsr _ => .jsr ctx
  | .lda _ => .lda ctx
  | .ldx _ => .ldx ctx
  | .ldy _ => .ldy ctx
  | .sta _ => .sta ctx
  | .stx _ => .stx ctx
  | .clc _ => .clc ctx
  | .cld _ => .cld ctx
  | .cli _ => .cli ctx
  | .clv _ => .clv ctx
  | .sec _ => .sec ctx
  | .tay _ => .tay ctx
  | .tya _ => .tya ctx
  | .and _ => .and ctx
  | .ora _ => .ora ctx
  | .bit _ => .bit ctx
  | .nop _ => .nop ctx
  | .brk _ => .brk ctx
  | .pla _ => .pla ctx
  | .plp _ => .plp ctx

/-- The five fields of a control word, as bits, before any check (R48). -/
structure Fields where
  h       : BitVec 8
  m       : BitVec 4
  rsv     : BitVec 4
  operand : Byte
  ea      : Addr
deriving DecidableEq, Repr

/-- The fault codes of 60_exceptions.md R118. Codes 1 to 4 are raised by accessor calls, 5 to 7 by EXECUTE. -/
inductive FaultCode where
  | registerName    -- 1 FAULT_REGISTER_NAME: register argument above 4
  | bitIndex        -- 2 FAULT_BIT_INDEX: bit index or flag above 7
  | reservedBit     -- 3 FAULT_RESERVED_BIT: the target is status bit 5
  | bitValue        -- 4 FAULT_BIT_VALUE: bit value above 1
  | reservedField   -- 5 FAULT_RESERVED_FIELD: control word bits 27:24 not 0
  | unknownHandler  -- 6 FAULT_UNKNOWN_HANDLER: handler code not assigned
  | illegalMode     -- 7 FAULT_ILLEGAL_MODE: mode code above 12
deriving DecidableEq, Repr

/-- The six accessor operations with raw 8-bit arguments (R57): register `r`, bit index `i`, flag `f`, bit value
`v`, byte value `b`. -/
inductive Accessor where
  | setRegBit (r i v : Byte)
  | getRegBit (r i : Byte)
  | setFlag (f v : Byte)
  | getFlag (f : Byte)
  | setRegByte (r b : Byte)
  | getRegByte (r : Byte)
deriving DecidableEq, Repr

/-- The operations the block accepts (R5). -/
inductive Operation where
  | execute (cw : CtrlWord)
  | access (call : Accessor)
  | reset
deriving DecidableEq, Repr

/-- What the environment presents to the block, one at a time: an operation, or one of the two writes it may
make itself between two operations, of the program counter or of a byte of memory (R6). -/
inductive Event where
  | operation (o : Operation)
  | writePc (v : Addr)
  | writeMem (a : Addr) (v : Byte)
deriving DecidableEq, Repr

end Sys2Proof
end

