-- ==== Sys2Proof/WellFormed.lean ====
section
/-! DEFINITION. Which raw inputs are legal: control words (30_encoding.md R54) and accessor calls
(40_register_file.md R57, R58). A value of `Instr` needs no check (see there). -/
namespace Sys2Proof

/-- The reserved field of a control word is 0 (R54 item 1). -/
def Fields.reservedClear (f : Fields) : Bool := f.rsv == 0#4

/-- The handler code is one of 0x01 to 0x24, the codes R50 assigns (R54 item 2). -/
def Fields.handlerAssigned (f : Fields) : Bool := 0x01#8 ≤ f.h && f.h ≤ 0x24#8

/-- The mode code is at most 12 (R51, R54 item 3). -/
def Fields.modeLegal (f : Fields) : Bool := f.m ≤ 12#4

/-- A control word that EXECUTE accepts (R54). -/
def Fields.wellFormed (f : Fields) : Bool := f.reservedClear && f.handlerAssigned && f.modeLegal

/-- A register argument names one of the five registers (R23, R57). -/
def registerLegal (r : Byte) : Bool := r ≤ 4#8

/-- A bit index or flag argument lies in 0..7 (R57). -/
def indexLegal (i : Byte) : Bool := i ≤ 7#8

/-- A bit value argument is 0 or 1 (R57). -/
def bitLegal (v : Byte) : Bool := v ≤ 1#8

/-- An accessor call that raises no fault (R58): legal arguments, and status bit 5 is no target of setRegBit
(R59), setFlag (R61) or getFlag (R62). Reading it with getRegBit is legal (R60). -/
def Accessor.wellFormed : Accessor → Bool
  | .setRegBit r i v => registerLegal r && indexLegal i && !(r == 0#8 && i == 5#8) && bitLegal v
  | .getRegBit r i => registerLegal r && indexLegal i
  | .setFlag f v => indexLegal f && !(f == 5#8) && bitLegal v
  | .getFlag f => indexLegal f && !(f == 5#8)
  | .setRegByte r _ => registerLegal r
  | .getRegByte r => registerLegal r

end Sys2Proof
end

