-- ==== Sys2Proof/Decode.lean ====
section
/-! DEFINITION. The control word's layout (30_encoding.md R48), the decoder with the checks of R54 in their
order, and the encoder, both from the tables of R50 and R51. -/
namespace Sys2Proof

/-- The fields of a control word: H 39:32, M 31:28, RSV 27:24, OPERAND 23:16, EA 15:0 (R48). -/
def Fields.ofWord (cw : CtrlWord) : Fields where
  h := cw.extractLsb' 32 8
  m := cw.extractLsb' 28 4
  rsv := cw.extractLsb' 24 4
  operand := cw.extractLsb' 16 8
  ea := cw.extractLsb' 0 16

/-- The control word with the given fields (R48). -/
def Fields.toWord (f : Fields) : CtrlWord := f.h ++ (f.m ++ (f.rsv ++ (f.operand ++ f.ea)))

/-- The number of a fault code (R118). -/
def FaultCode.number : FaultCode → Nat
  | .registerName => 1
  | .bitIndex => 2
  | .reservedBit => 3
  | .bitValue => 4
  | .reservedField => 5
  | .unknownHandler => 6
  | .illegalMode => 7

/-- The addressing mode a mode code stands for (R51); 13 to 15 are illegal. -/
def Mode.ofCode (m : BitVec 4) : Option Mode :=
  match m.toNat with
  | 0 => some .implied
  | 1 => some .accumulator
  | 2 => some .immediate
  | 3 => some .zeroPage
  | 4 => some .zeroPageX
  | 5 => some .zeroPageY
  | 6 => some .relative
  | 7 => some .absolute
  | 8 => some .absoluteX
  | 9 => some .absoluteY
  | 10 => some .indirect
  | 11 => some .indexedIndirect
  | 12 => some .indirectIndexed
  | _ => none

/-- The mode code of an addressing mode (R51). -/
def Mode.code : Mode → BitVec 4
  | .implied => 0#4
  | .accumulator => 1#4
  | .immediate => 2#4
  | .zeroPage => 3#4
  | .zeroPageX => 4#4
  | .zeroPageY => 5#4
  | .relative => 6#4
  | .absolute => 7#4
  | .absoluteX => 8#4
  | .absoluteY => 9#4
  | .indirect => 10#4
  | .indexedIndirect => 11#4
  | .indirectIndexed => 12#4

/-- The instruction a handler code selects, with its context (R50); 0x00 and 0x25 to 0xFF select none. -/
def Instr.ofHandler (h : BitVec 8) (ctx : Ctx) : Option Instr :=
  match h.toNat with
  | 0x01 => some (.adc ctx)
  | 0x02 => some (.sbc ctx)
  | 0x03 => some (.asl ctx)
  | 0x04 => some (.lsr ctx)
  | 0x05 => some (.cmp ctx)
  | 0x06 => some (.cpx ctx)
  | 0x07 => some (.cpy ctx)
  | 0x08 => some (.bcc ctx)
  | 0x09 => some (.bcs ctx)
  | 0x0A => some (.beq ctx)
  | 0x0B => some (.bmi ctx)
  | 0x0C => some (.bne ctx)
  | 0x0D => some (.bpl ctx)
  | 0x0E => some (.bvc ctx)
  | 0x0F => some (.bvs ctx)
  | 0x10 => some (.jmp ctx)
  | 0x11 => some (.jsr ctx)
  | 0x12 => some (.lda ctx)
  | 0x13 => some (.ldx ctx)
  | 0x14 => some (.ldy ctx)
  | 0x15 => some (.sta ctx)
  | 0x16 => some (.stx ctx)
  | 0x17 => some (.clc ctx)
  | 0x18 => some (.cld ctx)
  | 0x19 => some (.cli ctx)
  | 0x1A => some (.clv ctx)
  | 0x1B => some (.sec ctx)
  | 0x1C => some (.tay ctx)
  | 0x1D => some (.tya ctx)
  | 0x1E => some (.and ctx)
  | 0x1F => some (.ora ctx)
  | 0x20 => some (.bit ctx)
  | 0x21 => some (.nop ctx)
  | 0x22 => some (.brk ctx)
  | 0x23 => some (.pla ctx)
  | 0x24 => some (.plp ctx)
  | _ => none

/-- The handler code of an instruction (R50). -/
def Instr.handlerCode : Instr → BitVec 8
  | .adc _ => 0x01#8
  | .sbc _ => 0x02#8
  | .asl _ => 0x03#8
  | .lsr _ => 0x04#8
  | .cmp _ => 0x05#8
  | .cpx _ => 0x06#8
  | .cpy _ => 0x07#8
  | .bcc _ => 0x08#8
  | .bcs _ => 0x09#8
  | .beq _ => 0x0A#8
  | .bmi _ => 0x0B#8
  | .bne _ => 0x0C#8
  | .bpl _ => 0x0D#8
  | .bvc _ => 0x0E#8
  | .bvs _ => 0x0F#8
  | .jmp _ => 0x10#8
  | .jsr _ => 0x11#8
  | .lda _ => 0x12#8
  | .ldx _ => 0x13#8
  | .ldy _ => 0x14#8
  | .sta _ => 0x15#8
  | .stx _ => 0x16#8
  | .clc _ => 0x17#8
  | .cld _ => 0x18#8
  | .cli _ => 0x19#8
  | .clv _ => 0x1A#8
  | .sec _ => 0x1B#8
  | .tay _ => 0x1C#8
  | .tya _ => 0x1D#8
  | .and _ => 0x1E#8
  | .ora _ => 0x1F#8
  | .bit _ => 0x20#8
  | .nop _ => 0x21#8
  | .brk _ => 0x22#8
  | .pla _ => 0x23#8
  | .plp _ => 0x24#8

/-- The decoder, total on control words. The first check of R54 that fails names the fault: the reserved field,
then the handler code, then the mode code. -/
def decode (cw : CtrlWord) : Except FaultCode Instr :=
  let f := Fields.ofWord cw
  if !f.reservedClear then .error .reservedField
  else if !f.handlerAssigned then .error .unknownHandler
  else
    match Mode.ofCode f.m with
    | none => .error .illegalMode
    | some mode =>
      match Instr.ofHandler f.h ⟨f.operand, f.ea, mode⟩ with
      | none => .error .unknownHandler
      | some i => .ok i

/-- The fields of an instruction's control word; the reserved field is 0 (R48, R54). -/
def Instr.fields (i : Instr) : Fields where
  h := i.handlerCode
  m := i.ctx.mode.code
  rsv := 0#4
  operand := i.ctx.operand
  ea := i.ctx.ea

/-- The encoder: the control word of an instruction (R48, R50, R51). -/
def encode (i : Instr) : CtrlWord := i.fields.toWord

/-- The control word whose bits, numbered as `opcode_table.json` numbers them (bit 0 least significant of the
one 40-bit word), are the low `nbits` bits of `w`. -/
def tableWord (nbits w : Nat) : CtrlWord := BitVec.ofNat 40 (w % 2 ^ nbits)

/-- The instruction the decoder reads from a word of the opcode table; none where it refuses, or where the word
has a bit above bit 39 and so is no control word. -/
def decodeTableWord (nbits w : Nat) : Option Instr :=
  if w % 2 ^ nbits < 2 ^ 40 then
    match decode (tableWord nbits w) with
    | .ok i => some i
    | .error _ => none
  else none

end Sys2Proof
end

