-- ==== Sys2Proof/Machine/State.lean ====
section
/-! DEFINITION. The architectural state (10_state.md R16 to R32), the reasons a step can stop, and the state at
creation. -/
namespace Sys2Proof.Machine

/-- The five registers of R23, by name. -/
inductive Reg where
  | status | sp | a | x | y
deriving DecidableEq, Repr

/-- The seven writable flags of R25; status bit 5 is hardwired and is none of them (R26). `breakFlag` is Break. -/
inductive Flag where
  | carry | zero | interruptDisable | decimal | breakFlag | overflow | sign
deriving DecidableEq, Repr

/-- The 64 KiB array of R30 as the bytes that differ from what an unlisted address reads as, each with its
address. `Memory.wf` is its one canonical form. -/
abbrev Memory := List Host.Cell

/-- The canonical form: addresses strictly rise, lie in the address space, and no listed byte is the one an
unlisted address reads as. -/
abbrev Memory.wf (m : Memory) : Prop :=
  m.Pairwise (fun c d => c.1 < d.1) ∧ ∀ c ∈ m, c.1 < Config.memorySize ∧ c.2 ≠ Config.blankByte

/-- Why a step ends in a fault. -/
inductive Fault where
  /-- The block has halted with this code and nothing is presented to it: it has no further step (R119). Raised by
  `step` on a halted block. Safe: the spec gives no step either (log entry 5). -/
  | halted (code : FaultCode)
deriving DecidableEq, Repr

/-- Why a step is refused. -/
inductive Refusal where
  /-- An instruction of the opcode table without a meaning yet. Raised by a refused arm of `exec` only; no arm is
  refused. Safe. -/
  | notModelled (mnemonic : String)
  /-- The block has halted with this code and does not accept what is presented to it (R119; 93 section 2 says
  `refuse`). Raised by `step` on a halted block. Safe (log entries 5 and 9). -/
  | halted (code : FaultCode)
deriving DecidableEq, Repr

/-- The state of the block. `pc` to `fault` are the spec's (R16); `inbox` and `portOut` are the model's own. -/
structure State where
  /-- Program counter (R19). -/
  pc : Addr
  /-- Register 0, the status register as stored; bit 5 is set in every reachable state (R26). -/
  status : Byte
  /-- Register 1, the stack pointer. -/
  sp : Byte
  /-- Register 2, the accumulator. -/
  a : Byte
  /-- Register 3, index X. -/
  x : Byte
  /-- Register 4, index Y. -/
  y : Byte
  /-- The memory array (R30). -/
  mem : Memory
  /-- The fault indicator (R31). -/
  fault : Option FaultCode
  /-- DESIGN CHOICE (log entry 1): what the environment has presented and the block not yet taken, oldest first. -/
  inbox : List Event
  /-- DESIGN CHOICE (log entry 2): the value the last get accessor returned. -/
  portOut : Option Byte
deriving DecidableEq, Repr

/-- The state at creation (R32, R130), with nothing presented to the block and nothing returned by it. -/
def State.reset : State where
  pc := 0x0000#16
  status := 0x20#8
  sp := 0x00#8
  a := 0x00#8
  x := 0x00#8
  y := 0x00#8
  mem := []
  fault := none
  inbox := []
  portOut := none

/-- What the diagnostics read-out shows: the program counter, the eight status bits and the four general
registers (R128). Its text has no specified format and is not modelled (log entry 7). -/
structure Diagnostics where
  pc     : Addr
  status : Byte
  sp     : Byte
  a      : Byte
  x      : Byte
  y      : Byte
deriving DecidableEq, Repr

/-- What a step or a handler answers. -/
abbrev Result := Host.Outcome State Fault Refusal

end Sys2Proof.Machine
end

