-- ==== Sys2Proof/Machine/Ops.lean ====
section
/-! DEFINITION. The named operations over memory, registers, flags and the stack that every meaning is written
with, raising a fault, and RESET. -/
namespace Sys2Proof.Machine

/-! Memory (20_memory.md). -/

/-- The byte at an address; an unlisted address reads as the blank byte (R35, R44). -/
def Memory.read (m : Memory) (addr : Nat) : Byte :=
  match m with
  | [] => Config.blankByte
  | c :: rest => if c.1 = addr then c.2 else Memory.read rest addr

/-- The memory with one address made blank. -/
def Memory.erase (m : Memory) (addr : Nat) : Memory :=
  match m with
  | [] => []
  | c :: rest => if c.1 = addr then Memory.erase rest addr else c :: Memory.erase rest addr

/-- The memory with one more listed byte, before the first higher address. -/
def Memory.insert (m : Memory) (addr : Nat) (v : Byte) : Memory :=
  match m with
  | [] => [(addr, v)]
  | c :: rest => if addr < c.1 then (addr, v) :: c :: rest else c :: Memory.insert rest addr v

/-- The memory with one byte written (R36). Writing the blank byte removes the entry, so that equal memories are
equal lists. -/
def Memory.write (m : Memory) (addr : Nat) (v : Byte) : Memory :=
  if v = Config.blankByte then Memory.erase m addr else Memory.insert (Memory.erase m addr) addr v

/-- `MemRead(addr, 1)` (R35). -/
def State.readByte (s : State) (addr : Addr) : Byte := Memory.read s.mem addr.toNat

/-- `MemWrite(addr, 1, v)` (R36). -/
def State.writeByte (s : State) (addr : Addr) (v : Byte) : State :=
  { s with mem := Memory.write s.mem addr.toNat v }

/-! Registers and the program counter (10_state.md). -/

/-- The numeric index of a register (R23). -/
def Reg.index : Reg → Nat
  | .status => 0
  | .sp => 1
  | .a => 2
  | .x => 3
  | .y => 4

/-- The register a register argument names; an argument above 4 names none (R23, R57). -/
def Reg.ofIndex (r : Byte) : Option Reg :=
  match r.toNat with
  | 0 => some .status
  | 1 => some .sp
  | 2 => some .a
  | 3 => some .x
  | 4 => some .y
  | _ => none

/-- `reg[R]` (R12). -/
def State.reg (s : State) (r : Reg) : Byte :=
  match r with
  | .status => s.status
  | .sp => s.sp
  | .a => s.a
  | .x => s.x
  | .y => s.y

/-- `reg[R] <- v`; for the status register bit 5 of the stored byte is 1 whatever `v[5]` is (R12, R26). This is the
one operation that writes a register. -/
def State.setReg (s : State) (r : Reg) (v : Byte) : State :=
  match r with
  | .status => { s with status := v ||| Config.statusFixed }
  | .sp => { s with sp := v }
  | .a => { s with a := v }
  | .x => { s with x := v }
  | .y => { s with y := v }

/-- `pc <- v` (R12). -/
def State.setPc (s : State) (v : Addr) : State := { s with pc := v }

/-- A byte with bit `i` replaced: `(b & ~(1 << i)) | (v << i)` (R59). -/
def putBit (b : Byte) (i : Nat) (v : Bool) : Byte :=
  (b &&& ~~~(1#8 <<< i)) ||| ((if v then 1#8 else 0#8) <<< i)

/-- Bit `i` of a register: `(reg[R] >> i) & 1` (R60). -/
def State.regBit (s : State) (r : Reg) (i : Nat) : Bool := (s.reg r).getLsbD i

/-- A register with bit `i` replaced (R59). -/
def State.setRegBit (s : State) (r : Reg) (i : Nat) (v : Bool) : State := s.setReg r (putBit (s.reg r) i v)

/-! Flags (R25). -/

/-- The status bit index of a flag (R25). -/
def Flag.bit : Flag → Nat
  | .carry => 0
  | .zero => 1
  | .interruptDisable => 2
  | .decimal => 3
  | .breakFlag => 4
  | .overflow => 6
  | .sign => 7

/-- The value of a flag (R12, R62). -/
def State.flag (s : State) (f : Flag) : Bool := s.regBit .status f.bit

/-- `P.F <- b` (R12, R13, R61). -/
def State.setFlag (s : State) (f : Flag) (b : Bool) : State := s.setRegBit .status f.bit b

/-! The stack (48_system_stack.md). -/

/-- The address of a stack byte: `0x0100 | SP` (R113, R114). -/
def stackAddr (sp : Byte) : Addr := Config.stackPage ||| sp.setWidth 16

/-- PUSH(v): write at the stack top, then move SP down modulo 256 (R113). -/
def State.push (s : State) (v : Byte) : State :=
  let s := s.writeByte (stackAddr (s.reg .sp)) v
  s.setReg .sp (s.reg .sp - 1#8)

/-- The state after PULL() has moved SP up modulo 256 (R114). -/
def State.popped (s : State) : State := s.setReg .sp (s.reg .sp + 1#8)

/-- The byte PULL() returns: the stack top after SP has moved up (R114). -/
def State.pulled (s : State) : Byte := s.popped.readByte (stackAddr (s.popped.reg .sp))

/-- Push the program counter, high byte first, then low byte (R94, R115). -/
def State.pushPc (s : State) : State :=
  (s.push (s.pc.extractLsb' 8 8)).push (s.pc.extractLsb' 0 8)

/-! Faults, RESET and the diagnostics read-out. -/

/-- Raise Fault(code): nothing is written but the fault indicator, and the block is halted from then on (R119).
The block has no return from a fault (R122, R123). -/
def State.raiseFault (s : State) (code : FaultCode) : State := { s with fault := some code }

/-- RESET: every element of the state takes its value of R32, in place (R131). What is still presented to the
block stays presented (log entry 1). -/
def State.applyReset (s : State) : State := { State.reset with inbox := s.inbox }

/-- The diagnostics read-out: it reads six registers and writes nothing (R128). -/
def State.diagnostics (s : State) : Diagnostics where
  pc := s.pc
  status := s.reg .status
  sp := s.reg .sp
  a := s.reg .a
  x := s.reg .x
  y := s.reg .y

end Sys2Proof.Machine
end

