-- ==== Sys2Proof/Machine/Flags.lean ====
section
/-! DEFINITION. The Flag Computation Engine (41_flag_engine.md R67 to R75) over `WIDE`, and the writes of its
results into flags. -/
namespace Sys2Proof.Machine

/-- `wide(v)` for a byte (R12). -/
def wide (v : Byte) : Wide := v.setWidth 32

/-- `wide(v)` for a 16-bit value (R12, R78). -/
def wideAddr (v : Addr) : Wide := v.setWidth 32

/-- `wide(v)` for a flag (R12, R76). -/
def wideBit (b : Bool) : Wide := if b then 1#32 else 0#32

/-- `trunc_8(r)`, the value masked back to 8 bits (R12, R67). -/
def trunc8 (r : Wide) : Byte := r.setWidth 8

/-- CarryBin: `r > 0xFF` (R68). -/
def carryBin (r : Wide) : Bool := decide (0xFF#32 < r)

/-- CarryBcd: `r > 0x99` (R69). -/
def carryBcd (r : Wide) : Bool := decide (0x99#32 < r)

/-- CarryNoBorrow: `r < 0x100`, unsigned (R70). -/
def carryNoBorrow (r : Wide) : Bool := decide (r < 0x100#32)

/-- OvfAdd: bit 7 of `a` and `b` equal, and bit 7 of `r` different from that of `a` (R71). -/
def ovfAdd (a b r : Wide) : Bool :=
  decide ((a ^^^ b) &&& 0x80#32 = 0#32) && decide ((a ^^^ r) &&& 0x80#32 ≠ 0#32)

/-- OvfSub: bit 7 of `a` and `b` different, and bit 7 of `r` different from that of `a` (R72). -/
def ovfSub (a b r : Wide) : Bool :=
  decide ((a ^^^ b) &&& 0x80#32 ≠ 0#32) && decide ((a ^^^ r) &&& 0x80#32 ≠ 0#32)

/-- Sign: bit 7 (R73). -/
def signOf (r : Wide) : Bool := r.getLsbD 7

/-- Zero: the low 8 bits are 0 (R74). -/
def zeroOf (r : Wide) : Bool := decide (trunc8 r = 0#8)

/-- `P.S <- Sign(v)` and `P.Z <- Zero(v)` for a byte, in the order the handlers write them
(R82, R83, R97 to R99, R109, R110, R116). -/
def State.setSignZero (s : State) (v : Byte) : State :=
  (s.setFlag .sign (signOf (wide v))).setFlag .zero (zeroOf (wide v))

end Sys2Proof.Machine
end

