-- ==== Sys2Proof/Machine/Operands.lean ====
section
/-! DEFINITION. Where a handler's operand comes from and where its result goes: the uses of the Opcode Context of
30_encoding.md R53. A field a handler does not name is ignored by it. -/
namespace Sys2Proof.Machine

/-- `ctx.operand` as the u8 input of ADC, SBC, AND, ORA, BIT, the loads, and the value ASL and LSR shift in every
mode (R53, R81). -/
def inputByte (ctx : Ctx) : Byte := ctx.operand

/-- `ctx.ea` itself as the 16-bit subtrahend of the compares; memory at `ea` is not read (R53, R78). -/
def compareInput (ctx : Ctx) : Wide := wideAddr ctx.ea

/-- `ctx.ea` as a branch target (R53, R84). -/
def branchTarget (ctx : Ctx) : Addr := ctx.ea

/-- `ctx.ea & 0xFFFF`, the target of JMP (R53, R93). -/
def jumpTarget (ctx : Ctx) : Addr := ctx.ea &&& 0xFFFF#16

/-- `zext_16(ctx.operand)`, the target of JSR (R53, R94). -/
def callTarget (ctx : Ctx) : Addr := ctx.operand.setWidth 16

/-- `ctx.ea` as the address a store or a shift in memory mode writes (R53, R100, R82). -/
def storeAddr (ctx : Ctx) : Addr := ctx.ea

/-- The destination of ASL and LSR: A in Accumulator mode, else memory at `ctx.ea` (R52, R82, R83). -/
def State.writeShifted (s : State) (ctx : Ctx) (r : Byte) : State :=
  if ctx.mode = .accumulator then s.setReg .a r else s.writeByte (storeAddr ctx) r

end Sys2Proof.Machine
end

