-- ==== Sys2Proof/Machine/Accessors.lean ====
section
/-! DEFINITION. The six accessor operations (40_register_file.md R57 to R64), with their checks in the order of
R58. A failing check raises its fault and nothing else happens. A get accessor returns its value on the port. -/
namespace Sys2Proof.Machine

/-- Return a value from a get accessor: it stands in `portOut` (log entry 2). -/
def State.returnValue (s : State) (v : Byte) : State := { s with portOut := some v }

/-- A bit as the u8 0 or 1 that getRegBit and getFlag return (R60, R62). -/
def bitByte (b : Bool) : Byte := if b then 1#8 else 0#8

/-- setRegBit(R, i, v) (R59). -/
def accessSetRegBit (r i v : Byte) (s : State) : State :=
  match Reg.ofIndex r with
  | none => s.raiseFault .registerName
  | some reg =>
    if 7#8 < i then s.raiseFault .bitIndex
    else if reg = .status ∧ i = 5#8 then s.raiseFault .reservedBit
    else if 1#8 < v then s.raiseFault .bitValue
    else s.setRegBit reg i.toNat (v == 1#8)

/-- getRegBit(R, i) (R60). -/
def accessGetRegBit (r i : Byte) (s : State) : State :=
  match Reg.ofIndex r with
  | none => s.raiseFault .registerName
  | some reg =>
    if 7#8 < i then s.raiseFault .bitIndex
    else s.returnValue (bitByte (s.regBit reg i.toNat))

/-- setFlag(F, v) (R61). -/
def accessSetFlag (f v : Byte) (s : State) : State :=
  if 7#8 < f then s.raiseFault .bitIndex
  else if f = 5#8 then s.raiseFault .reservedBit
  else if 1#8 < v then s.raiseFault .bitValue
  else s.setRegBit .status f.toNat (v == 1#8)

/-- getFlag(F) (R62). -/
def accessGetFlag (f : Byte) (s : State) : State :=
  if 7#8 < f then s.raiseFault .bitIndex
  else if f = 5#8 then s.raiseFault .reservedBit
  else s.returnValue (bitByte (s.regBit .status f.toNat))

/-- setRegByte(R, b) (R63). -/
def accessSetRegByte (r b : Byte) (s : State) : State :=
  match Reg.ofIndex r with
  | none => s.raiseFault .registerName
  | some reg => s.setReg reg b

/-- getRegByte(R) (R64). -/
def accessGetRegByte (r : Byte) (s : State) : State :=
  match Reg.ofIndex r with
  | none => s.raiseFault .registerName
  | some reg => s.returnValue (s.reg reg)

/-- The accessor call the environment presented. -/
def State.access (s : State) (call : Accessor) : State :=
  match call with
  | .setRegBit r i v => accessSetRegBit r i v s
  | .getRegBit r i => accessGetRegBit r i s
  | .setFlag f v => accessSetFlag f v s
  | .getFlag f => accessGetFlag f s
  | .setRegByte r b => accessSetRegByte r b s
  | .getRegByte r => accessGetRegByte r s

end Sys2Proof.Machine
end

