-- ==== Sys2Proof/Machine/Arithmetic.lean ====
section
/-! DEFINITION. ADC, SBC, CMP, CPX, CPY (42_arithmetic.md R76 to R80). Each handler reads its inputs before it
writes, so its arithmetic is a pure function of them. -/
namespace Sys2Proof.Machine

/-- What an addition or a subtraction computes: the byte for A and the four flags it writes. -/
structure Alu where
  value    : Byte
  carry    : Bool
  zero     : Bool
  overflow : Bool
  sign     : Bool
deriving DecidableEq, Repr

/-- The once-adjusted sum: 6 is added when the low nibbles and the carry-in exceed 9 (R15, R76). -/
def adjustOnce (a m c sum : Wide) : Wide :=
  if 9#32 < (a &&& 0xF#32) + (m &&& 0xF#32) + c then sum + 6#32 else sum

/-- The second correction of a decimal addition: 96 is added when the once-adjusted sum exceeds 0x99 (R76). -/
def adjustTwice (once : Wide) : Wide := if 0x99#32 < once then once + 96#32 else once

/-- The arithmetic of ADC (R76): Z from the raw sum in both modes (D3); with D = 1, S and V from the once-adjusted
sum and C by the BCD rule; with D = 0, all from the raw sum. -/
def addWithCarry (acc operand : Byte) (carryIn decimal : Bool) : Alu :=
  let a := wide acc
  let m := wide operand
  let c := wideBit carryIn
  let sum := c + a + m
  let once := if decimal then adjustOnce a m c sum else sum
  let final := if decimal then adjustTwice once else once
  { value := trunc8 final
    carry := if decimal then carryBcd final else carryBin final
    zero := zeroOf sum
    overflow := ovfAdd a m once
    sign := signOf once }

/-- The first correction of a decimal subtraction: 6 is subtracted when `int(a & 0xF) - int(c) < int(m & 0xF)`, as
mathematical integers (R77, D4). -/
def borrowOnce (a m c diff : Wide) : Wide :=
  if ((a &&& 0xF#32).toNat : Int) - (c.toNat : Int) < ((m &&& 0xF#32).toNat : Int) then diff - 6#32 else diff

/-- The second correction of a decimal subtraction: 0x60 is subtracted when the value, unsigned in `WIDE`, exceeds
0x99 (R77). -/
def borrowTwice (diff : Wide) : Wide := if 0x99#32 < diff then diff - 0x60#32 else diff

/-- The arithmetic of SBC (R77): the carry-in is subtracted as it stands; S, Z and V from the difference before the
decimal correction; C after it (D5). -/
def subtractWithCarry (acc operand : Byte) (carryIn decimal : Bool) : Alu :=
  let a := wide acc
  let m := wide operand
  let c := wideBit carryIn
  let diff := a - m - c
  let final := if decimal then borrowTwice (borrowOnce a m c diff) else diff
  { value := trunc8 final
    carry := carryNoBorrow final
    zero := zeroOf diff
    overflow := ovfSub a m diff
    sign := signOf diff }

/-- Write an addition's or a subtraction's flags and its byte (R76, R77). -/
def State.writeAlu (s : State) (r : Alu) : State :=
  ((((s.setFlag .zero r.zero).setFlag .sign r.sign).setFlag .overflow r.overflow).setFlag .carry r.carry).setReg .a
    r.value

/-- The shared shape of the compares: C, S and Z from `reg - ctx.ea` in `WIDE` (R78 to R80). -/
def State.compare (s : State) (r : Reg) (ctx : Ctx) : State :=
  let diff := wide (s.reg r) - compareInput ctx
  ((s.setFlag .carry (carryNoBorrow diff)).setFlag .sign (signOf diff)).setFlag .zero (zeroOf diff)

/-- ADC (R76). -/
def execAdc (ctx : Ctx) (s : State) : Result :=
  .next (s.writeAlu (addWithCarry (s.reg .a) (inputByte ctx) (s.flag .carry) (s.flag .decimal)))

/-- SBC (R77). -/
def execSbc (ctx : Ctx) (s : State) : Result :=
  .next (s.writeAlu (subtractWithCarry (s.reg .a) (inputByte ctx) (s.flag .carry) (s.flag .decimal)))

/-- CMP (R78). -/
def execCmp (ctx : Ctx) (s : State) : Result := .next (s.compare .a ctx)

/-- CPX (R79). -/
def execCpx (ctx : Ctx) (s : State) : Result := .next (s.compare .x ctx)

/-- CPY (R80). -/
def execCpy (ctx : Ctx) (s : State) : Result := .next (s.compare .y ctx)

end Sys2Proof.Machine
end

