-- ==== Sys2Proof/Machine/Control.lean ====
section
/-! DEFINITION. The eight branches, JMP and JSR (44_control.md R84 to R95). -/
namespace Sys2Proof.Machine

/-- The shared shape of the branches: `pc <- ctx.ea` when the flag has the wanted value, else nothing (R84). -/
def State.branchWhen (s : State) (f : Flag) (wanted : Bool) (ctx : Ctx) : State :=
  if s.flag f = wanted then s.setPc (branchTarget ctx) else s

/-- BCC (R85). -/
def execBcc (ctx : Ctx) (s : State) : Result := .next (s.branchWhen .carry false ctx)

/-- BCS (R86). -/
def execBcs (ctx : Ctx) (s : State) : Result := .next (s.branchWhen .carry true ctx)

/-- BEQ (R87). -/
def execBeq (ctx : Ctx) (s : State) : Result := .next (s.branchWhen .zero true ctx)

/-- BMI (R88). -/
def execBmi (ctx : Ctx) (s : State) : Result := .next (s.branchWhen .sign true ctx)

/-- BNE (R89). -/
def execBne (ctx : Ctx) (s : State) : Result := .next (s.branchWhen .zero false ctx)

/-- BPL (R90). -/
def execBpl (ctx : Ctx) (s : State) : Result := .next (s.branchWhen .sign false ctx)

/-- BVC (R91). -/
def execBvc (ctx : Ctx) (s : State) : Result := .next (s.branchWhen .overflow false ctx)

/-- BVS (R92). -/
def execBvs (ctx : Ctx) (s : State) : Result := .next (s.branchWhen .overflow true ctx)

/-- JMP (R93). -/
def execJmp (ctx : Ctx) (s : State) : Result := .next (s.setPc (jumpTarget ctx))

/-- JSR: the decremented `pc` is pushed, then `pc` takes the zero-extended operand (R94). -/
def execJsr (ctx : Ctx) (s : State) : Result :=
  .next (((s.setPc (s.pc - 1#16)).pushPc).setPc (callTarget ctx))

end Sys2Proof.Machine
end

