-- ==== Sys2Proof/Machine/FlagOps.lean ====
section
/-! DEFINITION. CLC, CLD, CLI, CLV, SEC (46_flag_ops.md R104 to R108); they ignore the Opcode Context. -/
namespace Sys2Proof.Machine

/-- CLC (R104). -/
def execClc (_ctx : Ctx) (s : State) : Result := .next (s.setFlag .carry false)

/-- CLD (R105). -/
def execCld (_ctx : Ctx) (s : State) : Result := .next (s.setFlag .decimal false)

/-- CLI (R106). -/
def execCli (_ctx : Ctx) (s : State) : Result := .next (s.setFlag .interruptDisable false)

/-- CLV (R107). -/
def execClv (_ctx : Ctx) (s : State) : Result := .next (s.setFlag .overflow false)

/-- SEC (R108). -/
def execSec (_ctx : Ctx) (s : State) : Result := .next (s.setFlag .carry true)

end Sys2Proof.Machine
end

