-- ==== Sys2Proof/Machine/LoadStore.lean ====
section
/-! DEFINITION. LDA, LDX, LDY, STA, STX, TAY, TYA (45_load_store.md R96 to R103). -/
namespace Sys2Proof.Machine

/-- The shared shape of the loads: the operand into a register, S and Z from it; memory is not read (R96, R97). -/
def State.load (s : State) (r : Reg) (ctx : Ctx) : State :=
  (s.setReg r (inputByte ctx)).setSignZero (inputByte ctx)

/-- LDA (R97). -/
def execLda (ctx : Ctx) (s : State) : Result := .next (s.load .a ctx)

/-- LDX (R98). -/
def execLdx (ctx : Ctx) (s : State) : Result := .next (s.load .x ctx)

/-- LDY (R99). -/
def execLdy (ctx : Ctx) (s : State) : Result := .next (s.load .y ctx)

/-- STA (R100). -/
def execSta (ctx : Ctx) (s : State) : Result := .next (s.writeByte (storeAddr ctx) (s.reg .a))

/-- STX (R101). -/
def execStx (ctx : Ctx) (s : State) : Result := .next (s.writeByte (storeAddr ctx) (s.reg .x))

/-- TAY; no flag is written (R102). -/
def execTay (_ctx : Ctx) (s : State) : Result := .next (s.setReg .y (s.reg .a))

/-- TYA; no flag is written (R103). -/
def execTya (_ctx : Ctx) (s : State) : Result := .next (s.setReg .a (s.reg .y))

end Sys2Proof.Machine
end

