-- ==== Sys2Proof/Machine/Logical.lean ====
section
/-! DEFINITION. AND, ORA, BIT (47_logical.md R109 to R111). -/
namespace Sys2Proof.Machine

/-- The shared end of AND and ORA: the combined byte into A, S and Z from it (R109, R110). -/
def State.combine (s : State) (r : Byte) : State := (s.setReg .a r).setSignZero r

/-- AND (R109). -/
def execAnd (ctx : Ctx) (s : State) : Result := .next (s.combine (s.reg .a &&& inputByte ctx))

/-- ORA (R110). -/
def execOra (ctx : Ctx) (s : State) : Result := .next (s.combine (s.reg .a ||| inputByte ctx))

/-- BIT: V and S are bits 6 and 7 of the operand, Z tells that the operand and A have no bit in common (R111). -/
def execBit (ctx : Ctx) (s : State) : Result :=
  let v := inputByte ctx
  .next (((s.setFlag .overflow (v.getLsbD 6)).setFlag .sign (v.getLsbD 7)).setFlag .zero
    (zeroOf (wide (v &&& s.reg .a))))

end Sys2Proof.Machine
end

