-- ==== Sys2Proof/Machine/Shifts.lean ====
section
/-! DEFINITION. ASL and LSR (43_shifts.md R81 to R83). -/
namespace Sys2Proof.Machine

/-- What both shifts do with the bit shifted out and the shifted byte: C, S, Z, then the destination (R82, R83). -/
def State.finishShift (s : State) (ctx : Ctx) (out : Bool) (r : Byte) : State :=
  ((s.setFlag .carry out).setSignZero r).writeShifted ctx r

/-- ASL: the operand one bit to the left; C is its bit 7 (R82). -/
def execAsl (ctx : Ctx) (s : State) : Result :=
  let v := inputByte ctx
  .next (s.finishShift ctx (v.getLsbD 7) (v <<< 1))

/-- LSR: the operand one bit to the right; C is its bit 0 (R83). -/
def execLsr (ctx : Ctx) (s : State) : Result :=
  let v := inputByte ctx
  .next (s.finishShift ctx (v.getLsbD 0) (v >>> 1))

end Sys2Proof.Machine
end

