-- ==== Sys2Proof/Machine/SystemStack.lean ====
section
/-! DEFINITION. NOP, BRK, PLA, PLP (48_system_stack.md R112 to R117). -/
namespace Sys2Proof.Machine

/-- NOP: no state change; `pc` is the environment's to advance (R112). -/
def execNop (_ctx : Ctx) (s : State) : Result := .next s

/-- BRK: `pc` is incremented and pushed, the status as it is before B and D are set is pushed, then B and D are
set; no vector is taken (R115). -/
def execBrk (_ctx : Ctx) (s : State) : Result :=
  let pushed := (s.setPc (s.pc + 1#16)).pushPc
  let stacked := pushed.push (pushed.reg .status)
  .next ((stacked.setFlag .breakFlag true).setFlag .decimal true)

/-- PLA: the pulled byte into A, S and Z from it (R116). -/
def execPla (_ctx : Ctx) (s : State) : Result := .next ((s.popped.setReg .a s.pulled).setSignZero s.pulled)

/-- PLP: the pulled byte into the status register, whose bit 5 stays 1 (R117). -/
def execPlp (_ctx : Ctx) (s : State) : Result := .next (s.popped.setReg .status s.pulled)

end Sys2Proof.Machine
end

