-- ==== Sys2Proof/Machine/Dispatch.lean ====
section
/-! DEFINITION. One arm per instruction: the handler that EXECUTE selects (30_encoding.md R50). -/
namespace Sys2Proof.Machine

def exec (i : Instr) (s : State) : Host.Outcome State Fault Refusal :=
  match i with
  | .adc ctx => Sys2Proof.Machine.execAdc ctx s
  | .sbc ctx => Sys2Proof.Machine.execSbc ctx s
  | .asl ctx => Sys2Proof.Machine.execAsl ctx s
  | .lsr ctx => Sys2Proof.Machine.execLsr ctx s
  | .cmp ctx => Sys2Proof.Machine.execCmp ctx s
  | .cpx ctx => Sys2Proof.Machine.execCpx ctx s
  | .cpy ctx => Sys2Proof.Machine.execCpy ctx s
  | .bcc ctx => Sys2Proof.Machine.execBcc ctx s
  | .bcs ctx => Sys2Proof.Machine.execBcs ctx s
  | .beq ctx => Sys2Proof.Machine.execBeq ctx s
  | .bmi ctx => Sys2Proof.Machine.execBmi ctx s
  | .bne ctx => Sys2Proof.Machine.execBne ctx s
  | .bpl ctx => Sys2Proof.Machine.execBpl ctx s
  | .bvc ctx => Sys2Proof.Machine.execBvc ctx s
  | .bvs ctx => Sys2Proof.Machine.execBvs ctx s
  | .jmp ctx => Sys2Proof.Machine.execJmp ctx s
  | .jsr ctx => Sys2Proof.Machine.execJsr ctx s
  | .lda ctx => Sys2Proof.Machine.execLda ctx s
  | .ldx ctx => Sys2Proof.Machine.execLdx ctx s
  | .ldy ctx => Sys2Proof.Machine.execLdy ctx s
  | .sta ctx => Sys2Proof.Machine.execSta ctx s
  | .stx ctx => Sys2Proof.Machine.execStx ctx s
  | .clc ctx => Sys2Proof.Machine.execClc ctx s
  | .cld ctx => Sys2Proof.Machine.execCld ctx s
  | .cli ctx => Sys2Proof.Machine.execCli ctx s
  | .clv ctx => Sys2Proof.Machine.execClv ctx s
  | .sec ctx => Sys2Proof.Machine.execSec ctx s
  | .tay ctx => Sys2Proof.Machine.execTay ctx s
  | .tya ctx => Sys2Proof.Machine.execTya ctx s
  | .and ctx => Sys2Proof.Machine.execAnd ctx s
  | .ora ctx => Sys2Proof.Machine.execOra ctx s
  | .bit ctx => Sys2Proof.Machine.execBit ctx s
  | .nop ctx => Sys2Proof.Machine.execNop ctx s
  | .brk ctx => Sys2Proof.Machine.execBrk ctx s
  | .pla ctx => Sys2Proof.Machine.execPla ctx s
  | .plp ctx => Sys2Proof.Machine.execPlp ctx s

end Sys2Proof.Machine
end

