-- ==== Sys2Proof/Machine/Port.lean ====
section
/-! DEFINITION. What the block does with one thing the environment presents (00_scope.md R5, R6), and with none. -/
namespace Sys2Proof.Machine

/-- EXECUTE(cw): the checks of R54, then the selected handler. A word that fails a check raises its fault. -/
def execute (cw : CtrlWord) (s : State) : Result :=
  match decode cw with
  | .ok i => exec i s
  | .error code => .next (s.raiseFault code)

/-- One operation of the block (R5). -/
def operate (o : Operation) (s : State) : Result :=
  match o with
  | .execute cw => execute cw s
  | .access call => .next (s.access call)
  | .reset => .next s.applyReset

/-- One thing the environment presents: an operation, or its own write of `pc` or of a byte of memory (R6). -/
def serve (e : Event) (s : State) : Result :=
  match e with
  | .operation o => operate o s
  | .writePc v => .next (s.setPc v)
  | .writeMem a v => .next (s.writeByte a v)

/-- With nothing presented the block is idle and keeps its whole state (R129; log entry 3). -/
def idle (s : State) : Result := .next s

/-- A halted block has no further step: it refuses what is presented to it, and with nothing presented it is stuck
(R119; log entries 5 and 9). -/
def halted (code : FaultCode) (s : State) : Result :=
  match s.inbox with
  | [] => .fault (.halted code)
  | _ :: _ => .refused (.halted code)

end Sys2Proof.Machine
end

