-- ==== Sys2Proof/Machine/Step.lean ====
section
/-! DEFINITION. One step of the machine, and how a control word is presented to it. -/
namespace Sys2Proof.Machine

/-- One step: a halted block stops (R119); otherwise the oldest thing presented is taken and performed to
completion (R4, R6), and with nothing presented the block is idle (R129). -/
def step (s : State) : Host.Outcome State Fault Refusal :=
  match s.fault with
  | some code => halted code s
  | none =>
    match s.inbox with
    | [] => idle s
    | e :: rest => serve e { s with inbox := rest }

/-- The state with EXECUTE of a control word presented ahead of everything else, so that the next step of a block
that has not halted takes it. The block fetches nothing itself (R47): this stands for the environment's fetch,
decode and dispatch (log entry 4). -/
def State.withFetchWord (s : State) (nbits w : Nat) : State :=
  { s with inbox := .operation (.execute (tableWord nbits w)) :: s.inbox }

end Sys2Proof.Machine
end

