-- ==== Sys2Proof/Safety.lean ====
section
/-! DEFINITION. The terms in which claims about the block are stated: its invariant, and the frame of an operation. -/
namespace Sys2Proof.Machine

/-- Status bit 5 is 1 (10_state.md R26). -/
abbrev State.bit5Set (s : State) : Prop := (s.reg .status).getLsbD 5 = true

/-- The invariant of the block: status bit 5 is 1 (R26) and the memory has its canonical form. -/
abbrev State.Inv (s : State) : Prop := s.bit5Set ∧ Memory.wf s.mem

/-- The frame of an operation from `s` to `t` that writes at most the registers `regs`, the flags `flags` and the
bytes at the addresses `stored`. Every other register but the status register, every other flag and every other
byte is unchanged; status bit 5 stays 1; the fault indicator, what is presented and what was returned are unchanged.
The program counter is left to the statement that uses the frame. -/
def Frame (regs : List Reg) (flags : List Flag) (stored : List Addr) (s t : State) : Prop :=
  (∀ r : Reg, r ≠ .status → r ∉ regs → t.reg r = s.reg r) ∧
  (∀ f : Flag, f ∉ flags → t.flag f = s.flag f) ∧
  (s.bit5Set → t.bit5Set) ∧
  (∀ addr : Addr, addr ∉ stored → t.readByte addr = s.readByte addr) ∧
  t.fault = s.fault ∧ t.inbox = s.inbox ∧ t.portOut = s.portOut

end Sys2Proof.Machine
end

