-- ==== Sys2Proof/Certificates/Slice0/Obligations.lean ====
section
/-! DEFINITION. The statements for the provers. Each docstring names the rules it formalises. Where a clause rests
on a decision the spec marks as its own (D<n> of 92_eei_decisions.md), on an inference the spec marks `[derived]`, or on
a log entry of this model, the docstring says so and the statement is a derived one. -/
namespace Sys2Proof.Claims

open Sys2Proof Sys2Proof.Machine

/-- The block has not halted and the oldest thing presented to it is `e`. The presentation list is the model's
(log entry 1). -/
abbrev Presents (s : State) (e : Event) (rest : List Event) : Prop := s.fault = none ∧ s.inbox = e :: rest

/-- The handler code in the control word of an instruction (bits 39:32, R48). -/
def handlerField (i : Instr) : Nat := (encode i).toNat / 2 ^ 32

/-- The handler codes of R50 as its table has them. -/
def handlerTable : List (Nat × (Ctx → Instr)) :=
  [(0x01, .adc), (0x02, .sbc), (0x03, .asl), (0x04, .lsr), (0x05, .cmp), (0x06, .cpx), (0x07, .cpy),
   (0x08, .bcc), (0x09, .bcs), (0x0A, .beq), (0x0B, .bmi), (0x0C, .bne), (0x0D, .bpl), (0x0E, .bvc),
   (0x0F, .bvs), (0x10, .jmp), (0x11, .jsr), (0x12, .lda), (0x13, .ldx), (0x14, .ldy), (0x15, .sta),
   (0x16, .stx), (0x17, .clc), (0x18, .cld), (0x19, .cli), (0x1A, .clv), (0x1B, .sec), (0x1C, .tay),
   (0x1D, .tya), (0x1E, .and), (0x1F, .ora), (0x20, .bit), (0x21, .nop), (0x22, .brk), (0x23, .pla),
   (0x24, .plp)]

/-- The mode codes of R51 as its table has them. -/
def modeTable : List (Nat × Mode) :=
  [(0, .implied), (1, .accumulator), (2, .immediate), (3, .zeroPage), (4, .zeroPageX), (5, .zeroPageY),
   (6, .relative), (7, .absolute), (8, .absoluteX), (9, .absoluteY), (10, .indirect), (11, .indexedIndirect),
   (12, .indirectIndexed)]

/-- A byte whose two nibbles are decimal digits. -/
abbrev IsBcd (b : Byte) : Prop := b.toNat / 16 < 10 ∧ b.toNat % 16 < 10

/-- The number two decimal digits stand for. -/
def bcdValue (b : Byte) : Nat := b.toNat / 16 * 10 + b.toNat % 16

/-- `x - y` on unsigned numbers of `w` bits, both below 2^w. -/
def subMod (w x y : Nat) : Nat := (x + 2 ^ w - y) % 2 ^ w

/-- Addition overflow from bit 7 of three numbers (R71). -/
def addOverflow (a m r : Nat) : Bool := (a.testBit 7 == m.testBit 7) && (a.testBit 7 != r.testBit 7)

/-- Subtraction overflow from bit 7 of three numbers (R72). -/
def subOverflow (a m r : Nat) : Bool := (a.testBit 7 != m.testBit 7) && (a.testBit 7 != r.testBit 7)

end Sys2Proof.Claims

open Sys2Proof Sys2Proof.Machine Sys2Proof.Claims

/-- R130, R32: the state at creation. That memory is included is the spec's decision D32. -/
def Obligations.CreationStateHoldsSpecifiedValues : Prop :=
  State.reset.pc = 0x0000#16 ∧ State.reset.reg .status = 0x20#8 ∧ State.reset.reg .sp = 0x00#8 ∧
  State.reset.reg .a = 0x00#8 ∧ State.reset.reg .x = 0x00#8 ∧ State.reset.reg .y = 0x00#8 ∧
  (∀ f : Flag, State.reset.flag f = false) ∧ (∀ addr : Addr, State.reset.readByte addr = 0x00#8) ∧
  State.reset.fault = none

/-- R131, R132: RESET returns to the creation state in place, and no operation tells the two apart. That memory is cleared too is the spec's decision D32; the presented events are the model's (log entry 1). -/
def Obligations.ResetCannotBeToldFromCreation : Prop :=
  ∀ (s : State) (rest : List Event), Presents s (.operation .reset) rest →
    step s = .next { State.reset with inbox := rest } ∧
    ∀ n : Nat, Host.Core.run core (n + 1) s = Host.Core.run core n { State.reset with inbox := rest }

/-- R5, R48: EXECUTE(cw) is one run of the handler that cw selects. The presentation list is the model's (log entry 1). -/
def Obligations.StepRunsTheDecodedInstruction : Prop :=
  ∀ (s : State) (cw : CtrlWord) (rest : List Event) (i : Instr),
    Presents s (.operation (.execute cw)) rest → decode cw = .ok i → step s = exec i { s with inbox := rest }

/-- How a control word comes to run (log entry 4): the environment presents it and the next step runs it. -/
def Obligations.PresentedTableWordRunsNext : Prop :=
  ∀ (s : State) (nbits w : Nat) (i : Instr), s.fault = none → decodeTableWord nbits w = some i →
    step (s.withFetchWord nbits w) = exec i s

/-- R129: between operations the block is idle and keeps its whole state. That idling is a step is the model's (log entry 3). -/
def Obligations.IdleBlockKeepsItsState : Prop :=
  ∀ s : State, s.fault = none → s.inbox = [] → step s = .next s

/-- R6 (decision D26): what the environment may write between two operations. That each is a step is the model's (log entry 1). -/
def Obligations.EnvironmentWritesOnlyPcAndMemory : Prop :=
  (∀ (s : State) (v : Addr) (rest : List Event), Presents s (.writePc v) rest →
    step s = .next { s with pc := v, inbox := rest }) ∧
  (∀ (s : State) (p : Addr) (v : Byte) (rest : List Event), Presents s (.writeMem p v) rest →
    ∃ t, step s = .next t ∧ (∀ q : Addr, t.readByte q = if q = p then v else s.readByte q) ∧
      t = { s with mem := t.mem, inbox := rest })

/-- R48, R50, R51 (decisions D20, D21): encoding and decoding agree on every instruction. -/
def Obligations.DecodeOfEncodeIsTheInstruction : Prop :=
  ∀ i : Instr, decode (encode i) = .ok i

/-- R48: every bit of a legal control word belongs to one of the five fields (decisions D20, D21). -/
def Obligations.EncodeOfDecodeIsTheWord : Prop :=
  ∀ (cw : CtrlWord) (i : Instr), decode cw = .ok i → encode i = cw

/-- R48, R50, R51 as arithmetic on numbers (decisions D20, D21); every legal handler with every legal mode (R52, decision D22). -/
def Obligations.ControlWordsSelectTheirHandlers : Prop :=
  ∀ h ∈ handlerTable, ∀ m ∈ modeTable, ∀ (operand : Byte) (ea : Addr),
    decode (BitVec.ofNat 40 (h.1 * 2 ^ 32 + m.1 * 2 ^ 28 + operand.toNat * 2 ^ 16 + ea.toNat)) =
      .ok (h.2 ⟨operand, ea, m.2⟩)

/-- Five words of 95_test_vectors.md (E3, V-ASL-2, V-JSR-1, V-BIT-1, V-PLP-1), by the layout and the codes of R48, R50 and R51 (decisions D20, D21). -/
def Obligations.SampleControlWordsDecode : Prop :=
  decode 0x0120500000#40 = .ok (.adc ⟨0x50#8, 0x0000#16, .immediate⟩) ∧
  decode 0x0330400010#40 = .ok (.asl ⟨0x40#8, 0x0010#16, .zeroPage⟩) ∧
  decode 0x1170401240#40 = .ok (.jsr ⟨0x40#8, 0x1240#16, .absolute⟩) ∧
  decode 0x2030C00040#40 = .ok (.bit ⟨0xC0#8, 0x0040#16, .zeroPage⟩) ∧
  decode 0x2400000000#40 = .ok (.plp ⟨0x00#8, 0x0000#16, .implied⟩)

/-- R54 (decision D22): the three checks of EXECUTE in order, on the bits of the word. That recording the fault is a next state is log entry 5. -/
def Obligations.ControlWordChecksInOrder : Prop :=
  ∀ (s : State) (cw : CtrlWord) (rest : List Event), Presents s (.operation (.execute cw)) rest →
    let h := cw.toNat / 2 ^ 32
    let m := cw.toNat / 2 ^ 28 % 16
    let rsv := cw.toNat / 2 ^ 24 % 16
    let u := { s with inbox := rest }
    (rsv ≠ 0 → step s = .next { u with fault := some .reservedField }) ∧
    (rsv = 0 → (h = 0 ∨ 0x25 ≤ h) → step s = .next { u with fault := some .unknownHandler }) ∧
    (rsv = 0 → 1 ≤ h → h ≤ 0x24 → 12 < m → step s = .next { u with fault := some .illegalMode }) ∧
    (rsv = 0 → 1 ≤ h → h ≤ 0x24 → m ≤ 12 → ∃ i : Instr, step s = exec i u ∧ i.handlerCode.toNat = h ∧
      i.ctx.operand.toNat = cw.toNat / 2 ^ 16 % 256 ∧ i.ctx.ea.toNat = cw.toNat % 2 ^ 16 ∧
      i.ctx.mode.code.toNat = m)

/-- R119 (decision D19): a halted block accepts no EXECUTE, no accessor call and no RESET, and `fault` is never cleared. That it takes no environment write either is the model's (log entry 9). -/
def Obligations.HaltedBlockMakesNoStep : Prop :=
  ∀ (s t : State) (code : FaultCode), s.fault = some code → step s ≠ .next t

/-- 93_implementation_defined.md sections 1 and 2 (`refuse`, `stuck`); the form of the two stops is the model's (log entry 5), and so is refusing the environment's writes (log entry 9). -/
def Obligations.HaltedBlockStopsByName : Prop :=
  ∀ (s : State) (code : FaultCode), s.fault = some code →
    (s.inbox = [] → step s = .fault (.halted code)) ∧ (s.inbox ≠ [] → step s = .refused (.halted code))

/-- R119, R120 (decisions D19, D22): the state after a fault is exactly the state before the operation, plus the code. That recording it is a next state, and the presentation list, are the model's (log entries 5 and 1). -/
def Obligations.FaultsArePrecise : Prop :=
  ∀ (s t : State) (code : FaultCode), step s = .next t → t.fault = some code →
    s.fault = none ∧ ∃ (e : Event) (rest : List Event), s.inbox = e :: rest ∧
      t = { s with inbox := rest, fault := some code }

/-- R118 (decision D19): the table of codes, causes and the operations that raise them. That recording a code is a next state is log entry 5. -/
def Obligations.FaultCodesHaveTheirCauses : Prop :=
  ([FaultCode.registerName, .bitIndex, .reservedBit, .bitValue, .reservedField, .unknownHandler, .illegalMode].map
    FaultCode.number = [1, 2, 3, 4, 5, 6, 7]) ∧
  ∀ (s t : State) (o : Operation) (rest : List Event) (code : FaultCode),
    Presents s (.operation o) rest → step s = .next t → t.fault = some code →
    match code with
    | .registerName => ∃ r : Byte, 4 < r.toNat ∧ ((∃ i v, o = .access (.setRegBit r i v)) ∨
        (∃ i, o = .access (.getRegBit r i)) ∨ (∃ b, o = .access (.setRegByte r b)) ∨ o = .access (.getRegByte r))
    | .bitIndex => ∃ i : Byte, 7 < i.toNat ∧ ((∃ r v, o = .access (.setRegBit r i v)) ∨
        (∃ r, o = .access (.getRegBit r i)) ∨ (∃ v, o = .access (.setFlag i v)) ∨ o = .access (.getFlag i))
    | .reservedBit => (∃ v, o = .access (.setRegBit 0#8 5#8 v)) ∨ (∃ v, o = .access (.setFlag 5#8 v)) ∨
        o = .access (.getFlag 5#8)
    | .bitValue => ∃ v : Byte, 1 < v.toNat ∧ ((∃ r i, o = .access (.setRegBit r i v)) ∨
        ∃ f, o = .access (.setFlag f v))
    | .reservedField => ∃ cw, o = .execute cw ∧ cw.toNat / 2 ^ 24 % 16 ≠ 0
    | .unknownHandler => ∃ cw, o = .execute cw ∧ (cw.toNat / 2 ^ 32 = 0 ∨ 0x25 ≤ cw.toNat / 2 ^ 32)
    | .illegalMode => ∃ cw, o = .execute cw ∧ 12 < cw.toNat / 2 ^ 28 % 16

/-- R26 (decisions D16, D17): status bit 5 is 1 after any sequence of operations. The canonical form is the model's (log entry 6). -/
def Obligations.EveryStepKeepsTheInvariant : Prop :=
  ∀ s t : State, s.Inv → step s = .next t → t.Inv

/-- R26: bit 5 is 1 immediately after initialization. The canonical form is the model's (log entry 6). -/
def Obligations.CreationStateMeetsTheInvariant : Prop :=
  State.reset.Inv

/-- R66 (an inference the spec marks as its own): no handler ever raises a fault. R5: EXECUTE returns no value. -/
def Obligations.HandlersAlwaysComplete : Prop :=
  ∀ (i : Instr) (s : State), ∃ t, exec i s = .next t ∧ t.fault = s.fault ∧ t.inbox = s.inbox ∧ t.portOut = s.portOut

/-- R21: the table of who writes pc, with the conditions of R85 to R92. Which flag each branch tests, the wrap of BRK (R22) and the zero-extension of JSR (R94) are the spec's decisions D8, D15 and D25. The presentation list, and that a recorded fault is a next state, are log entries 1 and 5. -/
def Obligations.PcWrittenOnlyByControlTransfers : Prop :=
  (∀ (i : Instr) (s t : State), exec i s = .next t →
    t.pc = match i with
      | .bcc ctx => if s.flag .carry = false then ctx.ea else s.pc
      | .bcs ctx => if s.flag .carry = true then ctx.ea else s.pc
      | .beq ctx => if s.flag .zero = true then ctx.ea else s.pc
      | .bmi ctx => if s.flag .sign = true then ctx.ea else s.pc
      | .bne ctx => if s.flag .zero = false then ctx.ea else s.pc
      | .bpl ctx => if s.flag .sign = false then ctx.ea else s.pc
      | .bvc ctx => if s.flag .overflow = false then ctx.ea else s.pc
      | .bvs ctx => if s.flag .overflow = true then ctx.ea else s.pc
      | .jmp ctx => ctx.ea &&& 0xFFFF#16
      | .jsr ctx => ctx.operand.setWidth 16
      | .brk _ => BitVec.ofNat 16 ((s.pc.toNat + 1) % 2 ^ 16)
      | _ => s.pc) ∧
  (∀ (s t : State) (call : Accessor) (rest : List Event), Presents s (.operation (.access call)) rest →
    step s = .next t → t.pc = s.pc) ∧
  (∀ (s t : State) (cw : CtrlWord) (code : FaultCode) (rest : List Event),
    Presents s (.operation (.execute cw)) rest → decode cw = .error code → step s = .next t → t.pc = s.pc) ∧
  (∀ (s t : State) (rest : List Event), Presents s (.operation .reset) rest → step s = .next t → t.pc = 0x0000#16)

/-- R24, column "written by" (an inference the spec marks as its own). -/
def Obligations.RegistersWrittenOnlyByTheirWriters : Prop :=
  ∀ (i : Instr) (s t : State), exec i s = .next t →
    (match i with
      | .adc _ | .sbc _ | .lda _ | .tya _ | .and _ | .ora _ | .pla _ => True
      | .asl ctx | .lsr ctx => ctx.mode = .accumulator ∨ t.reg .a = s.reg .a
      | _ => t.reg .a = s.reg .a) ∧
    (match i with
      | .ldx _ => True
      | _ => t.reg .x = s.reg .x) ∧
    (match i with
      | .ldy _ | .tay _ => True
      | _ => t.reg .y = s.reg .y) ∧
    (match i with
      | .jsr _ | .brk _ | .pla _ | .plp _ => True
      | _ => t.reg .sp = s.reg .sp)

/-- R28, column "written by" (an inference the spec marks as its own, over decisions D3, D11 to D13 and D24). -/
def Obligations.FlagsWrittenOnlyByTheirWriters : Prop :=
  ∀ (i : Instr) (s t : State), exec i s = .next t →
    (match i with
      | .adc _ | .sbc _ | .cmp _ | .cpx _ | .cpy _ | .asl _ | .lsr _ | .clc _ | .sec _ | .plp _ => True
      | _ => t.flag .carry = s.flag .carry) ∧
    (match i with
      | .adc _ | .sbc _ | .cmp _ | .cpx _ | .cpy _ | .asl _ | .lsr _ | .lda _ | .ldx _ | .ldy _ | .and _ | .ora _
      | .bit _ | .pla _ | .plp _ => True
      | _ => t.flag .zero = s.flag .zero ∧ t.flag .sign = s.flag .sign) ∧
    (match i with
      | .cli _ | .plp _ => True
      | _ => t.flag .interruptDisable = s.flag .interruptDisable) ∧
    (match i with
      | .cld _ | .brk _ | .plp _ => True
      | _ => t.flag .decimal = s.flag .decimal) ∧
    (match i with
      | .brk _ | .plp _ => True
      | _ => t.flag .breakFlag = s.flag .breakFlag) ∧
    (match i with
      | .adc _ | .sbc _ | .bit _ | .clv _ | .plp _ => True
      | _ => t.flag .overflow = s.flag .overflow) ∧
    (match i with
      | .tay _ | .tya _ | .sta _ | .stx _ | .jmp _ | .jsr _ | .nop _ | .bcc _ | .bcs _ | .beq _ | .bmi _ | .bne _
      | .bpl _ | .bvc _ | .bvs _ => t.reg .status = s.reg .status
      | _ => True)

/-- R38 (an inference the spec marks as its own): the accesses each operation makes. The stack page is decision D10. -/
def Obligations.MemoryWrittenOnlyAtTheListedAddresses : Prop :=
  ∀ (i : Instr) (s t : State), exec i s = .next t → ∀ addr : Addr,
    match i with
    | .sta ctx | .stx ctx => addr ≠ storeAddr ctx → t.readByte addr = s.readByte addr
    | .asl ctx | .lsr ctx => (ctx.mode = .accumulator ∨ addr ≠ storeAddr ctx) → t.readByte addr = s.readByte addr
    | .jsr _ => addr ∉ [stackAddr (s.reg .sp), stackAddr (s.reg .sp - 1#8)] → t.readByte addr = s.readByte addr
    | .brk _ => addr ∉ [stackAddr (s.reg .sp), stackAddr (s.reg .sp - 1#8), stackAddr (s.reg .sp - 2#8)] →
        t.readByte addr = s.readByte addr
    | _ => t.readByte addr = s.readByte addr

/-- R52, R53 (decisions D22, D37): the table of which handler reads which field. -/
def Obligations.HandlersIgnoreUnnamedContextFields : Prop :=
  ∀ (i : Instr) (s : State) (operand : Byte) (ea : Addr) (mode : Mode),
    (match i with
      | .asl ctx => ctx.mode ≠ .accumulator → mode ≠ .accumulator →
          exec (.asl { ctx with mode := mode }) s = exec (.asl ctx) s
      | .lsr ctx => ctx.mode ≠ .accumulator → mode ≠ .accumulator →
          exec (.lsr { ctx with mode := mode }) s = exec (.lsr ctx) s
      | _ => exec (i.withCtx { i.ctx with mode := mode }) s = exec i s) ∧
    (match i with
      | .adc _ | .sbc _ | .and _ | .ora _ | .bit _ | .lda _ | .ldx _ | .ldy _ | .asl _ | .lsr _ | .jsr _ => True
      | _ => exec (i.withCtx { i.ctx with operand := operand }) s = exec i s) ∧
    (match i with
      | .cmp _ | .cpx _ | .cpy _ | .bcc _ | .bcs _ | .beq _ | .bmi _ | .bne _ | .bpl _ | .bvc _ | .bvs _ | .jmp _
      | .sta _ | .stx _ => True
      | .asl ctx => ctx.mode = .accumulator → exec (.asl { ctx with ea := ea }) s = exec (.asl ctx) s
      | .lsr ctx => ctx.mode = .accumulator → exec (.lsr { ctx with ea := ea }) s = exec (.lsr ctx) s
      | _ => exec (i.withCtx { i.ctx with ea := ea }) s = exec i s)

/-- R76. That Z is written, and from the raw sum, is the spec's decision D3. -/
def Obligations.AdcAddsWithCarry : Prop :=
  ∀ (ctx : Ctx) (s : State),
    let a := (s.reg .a).toNat
    let m := ctx.operand.toNat
    let c := (s.flag .carry).toNat
    let sum := c + a + m
    let once := if s.flag .decimal = true ∧ a % 16 + m % 16 + c > 9 then sum + 6 else sum
    let twice := if s.flag .decimal = true ∧ once > 0x99 then once + 96 else once
    handlerField (.adc ctx) = 0x01 ∧
    ∃ t, exec (.adc ctx) s = .next t ∧
      (t.reg .a).toNat = twice % 256 ∧
      t.flag .carry = (if s.flag .decimal = true then decide (twice > 0x99) else decide (sum > 0xFF)) ∧
      t.flag .zero = decide (sum % 256 = 0) ∧ t.flag .sign = once.testBit 7 ∧ t.flag .overflow = addOverflow a m once ∧
      t.pc = s.pc ∧ Frame [.a] [.carry, .zero, .overflow, .sign] [] s t

/-- R77, in integers where the rule wraps in WIDE. The signed nibble comparison and the carry after the correction are the spec's decisions D4 and D5. -/
def Obligations.SbcSubtractsWithCarry : Prop :=
  ∀ (ctx : Ctx) (s : State),
    let a : Int := (s.reg .a).toNat
    let m : Int := ctx.operand.toNat
    let c : Int := (s.flag .carry).toNat
    let diff := a - m - c
    let once := if s.flag .decimal = true ∧ a % 16 - c < m % 16 then diff - 6 else diff
    let twice := if s.flag .decimal = true ∧ (once < 0 ∨ 0x99 < once) then once - 0x60 else once
    handlerField (.sbc ctx) = 0x02 ∧
    ∃ t, exec (.sbc ctx) s = .next t ∧
      ((t.reg .a).toNat : Int) = twice % 256 ∧ t.flag .carry = decide (0 ≤ twice ∧ twice < 256) ∧
      t.flag .zero = decide (diff % 256 = 0) ∧ t.flag .sign = (diff % 256).toNat.testBit 7 ∧
      t.flag .overflow = subOverflow (s.reg .a).toNat ctx.operand.toNat (diff % 256).toNat ∧
      t.pc = s.pc ∧ Frame [.a] [.carry, .zero, .overflow, .sign] [] s t

/-- The glossary of 00_scope.md: V is signed-arithmetic overflow; R71 and R72 give it by sign bits. -/
def Obligations.OverflowFlagIsSignedOverflow : Prop :=
  (∀ (ctx : Ctx) (s : State), s.flag .decimal = false → ∃ t, exec (.adc ctx) s = .next t ∧
    let r : Int := (s.reg .a).toInt + ctx.operand.toInt + (s.flag .carry).toNat
    t.flag .overflow = decide (r < -128 ∨ 127 < r)) ∧
  (∀ (ctx : Ctx) (s : State), ∃ t, exec (.sbc ctx) s = .next t ∧
    let r : Int := (s.reg .a).toInt - ctx.operand.toInt - (s.flag .carry).toNat
    t.flag .overflow = decide (r < -128 ∨ 127 < r))

/-- What the corrections of R76 are for: BCD mode treats nibbles as decimal digits (glossary of 00_scope.md). -/
def Obligations.DecimalAdcAddsDecimalNumbers : Prop :=
  ∀ (ctx : Ctx) (s : State), s.flag .decimal = true → IsBcd (s.reg .a) → IsBcd ctx.operand →
    let sum := bcdValue (s.reg .a) + bcdValue ctx.operand + (s.flag .carry).toNat
    ∃ t, exec (.adc ctx) s = .next t ∧ IsBcd (t.reg .a) ∧ bcdValue (t.reg .a) = sum % 100 ∧
      t.flag .carry = decide (100 ≤ sum)

/-- What the corrections of R77 are for (decisions D4, D5): BCD mode treats nibbles as decimal digits. -/
def Obligations.DecimalSbcSubtractsDecimalNumbers : Prop :=
  ∀ (ctx : Ctx) (s : State), s.flag .decimal = true → IsBcd (s.reg .a) → IsBcd ctx.operand →
    let diff : Int := (bcdValue (s.reg .a) : Int) - bcdValue ctx.operand - (s.flag .carry).toNat
    ∃ t, exec (.sbc ctx) s = .next t ∧ IsBcd (t.reg .a) ∧ (bcdValue (t.reg .a) : Int) = diff % 100 ∧
      t.flag .carry = decide (0 ≤ diff)

/-- R78, R79, R80. The carry rule, the registers and Z on the low byte are the spec's decisions D6, D7 and D2. -/
def Obligations.ComparesSubtractTheEffectiveAddress : Prop :=
  ∀ (ctx : Ctx) (s : State), ∀ k ∈ [(Instr.cmp ctx, 0x05, Reg.a), (Instr.cpx ctx, 0x06, Reg.x), (Instr.cpy ctx, 0x07, Reg.y)],
    let diff : Int := ((s.reg k.2.2).toNat : Int) - ctx.ea.toNat
    handlerField k.1 = k.2.1 ∧
    ∃ t, exec k.1 s = .next t ∧ t.flag .carry = decide (ctx.ea.toNat ≤ (s.reg k.2.2).toNat) ∧
      t.flag .sign = (diff % 256).toNat.testBit 7 ∧ t.flag .zero = decide (diff % 256 = 0) ∧
      t.pc = s.pc ∧ Frame [] [.carry, .sign, .zero] [] s t

/-- R10 (an inference the spec marks as its own, decision D1): the choice of 32 bits for WIDE is not observable. -/
def Obligations.WideWidthIsNotObservable : Prop :=
  ∀ w : Nat, 17 ≤ w → ∀ (ctx : Ctx) (s : State),
    let a := (s.reg .a).toNat
    let m := ctx.operand.toNat
    let c := (s.flag .carry).toNat
    let d := s.flag .decimal
    (let sum := (c + a + m) % 2 ^ w
     let once := if d = true ∧ 9 < a % 16 + m % 16 + c then (sum + 6) % 2 ^ w else sum
     let twice := if d = true ∧ 0x99 < once then (once + 96) % 2 ^ w else once
     ∃ t, exec (.adc ctx) s = .next t ∧ (t.reg .a).toNat = twice % 256 ∧
       t.flag .carry = (if d = true then decide (0x99 < twice) else decide (0xFF < twice)) ∧
       t.flag .zero = decide (sum % 256 = 0) ∧ t.flag .sign = once.testBit 7 ∧
       t.flag .overflow = addOverflow a m once) ∧
    (let diff := subMod w (subMod w a m) c
     let once := if d = true ∧ ((a % 16 : Nat) : Int) - c < (m % 16 : Nat) then subMod w diff 6 else diff
     let twice := if d = true ∧ 0x99 < once then subMod w once 0x60 else once
     ∃ t, exec (.sbc ctx) s = .next t ∧ (t.reg .a).toNat = twice % 256 ∧
       t.flag .carry = decide (twice < 0x100) ∧
       t.flag .zero = decide (diff % 256 = 0) ∧ t.flag .sign = diff.testBit 7 ∧
       t.flag .overflow = subOverflow a m diff) ∧
    (∀ k ∈ [(Instr.cmp ctx, Reg.a), (Instr.cpx ctx, Reg.x), (Instr.cpy ctx, Reg.y)],
      let diff := subMod w (s.reg k.2).toNat ctx.ea.toNat
      ∃ t, exec k.1 s = .next t ∧ t.flag .carry = decide (diff < 0x100) ∧
        t.flag .zero = decide (diff % 256 = 0) ∧ t.flag .sign = diff.testBit 7)

/-- R68, R69, R71, R72, R73 as numbers and bits. -/
def Obligations.FlagEngineFunctions : Prop :=
  (∀ r : Wide, carryBin r = decide (0xFF < r.toNat) ∧ carryBcd r = decide (0x99 < r.toNat) ∧
    signOf r = r.toNat.testBit 7) ∧
  (∀ a b r : Wide,
    ovfAdd a b r = decide (a.getLsbD 7 = b.getLsbD 7 ∧ a.getLsbD 7 ≠ r.getLsbD 7) ∧
    ovfSub a b r = decide (a.getLsbD 7 ≠ b.getLsbD 7 ∧ a.getLsbD 7 ≠ r.getLsbD 7))

/-- R81, R82, R83. That the operand and not A is shifted, in Accumulator mode too, is the spec's decision D23 (conflict C4). -/
def Obligations.ShiftsMoveTheOperand : Prop :=
  ∀ (ctx : Ctx) (s : State),
    ∀ k ∈ [(Instr.asl ctx, 0x03, ctx.operand.toNat * 2 % 256, ctx.operand.getLsbD 7),
           (Instr.lsr ctx, 0x04, ctx.operand.toNat / 2, ctx.operand.getLsbD 0)],
    handlerField k.1 = k.2.1 ∧
    ∃ t, exec k.1 s = .next t ∧ t.flag .carry = k.2.2.2 ∧ t.flag .sign = k.2.2.1.testBit 7 ∧
      t.flag .zero = decide (k.2.2.1 = 0) ∧ t.pc = s.pc ∧
      (ctx.mode = .accumulator → (t.reg .a).toNat = k.2.2.1 ∧ Frame [.a] [.carry, .sign, .zero] [] s t) ∧
      (ctx.mode ≠ .accumulator → (t.readByte ctx.ea).toNat = k.2.2.1 ∧
        Frame [] [.carry, .sign, .zero] [storeAddr ctx] s t)

/-- R84 to R92. Which flag each mnemonic tests is taken by the spec from the 6502 (its decision D8). -/
def Obligations.BranchesTakeTheEffectiveAddress : Prop :=
  ∀ (ctx : Ctx) (s : State),
    ∀ k ∈ [(Instr.bcc ctx, 0x08, Flag.carry, false),
           (Instr.bcs ctx, 0x09, Flag.carry, true),
           (Instr.beq ctx, 0x0A, Flag.zero, true),
           (Instr.bmi ctx, 0x0B, Flag.sign, true),
           (Instr.bne ctx, 0x0C, Flag.zero, false),
           (Instr.bpl ctx, 0x0D, Flag.sign, false),
           (Instr.bvc ctx, 0x0E, Flag.overflow, false),
           (Instr.bvs ctx, 0x0F, Flag.overflow, true)],
    handlerField k.1 = k.2.1 ∧
    exec k.1 s = .next (if s.flag k.2.2.1 = k.2.2.2 then { s with pc := ctx.ea } else s)

/-- R93. -/
def Obligations.JmpGoesToTheEffectiveAddress : Prop :=
  ∀ (ctx : Ctx) (s : State), handlerField (.jmp ctx) = 0x10 ∧
    exec (.jmp ctx) s = .next { s with pc := BitVec.ofNat 16 (ctx.ea.toNat % 2 ^ 16) }

/-- R94. The stack page and the zero-extension are the spec's decisions D10 and D25. -/
def Obligations.JsrPushesAndJumps : Prop :=
  ∀ (ctx : Ctx) (s : State),
    let hi := stackAddr (s.reg .sp)
    let lo := stackAddr (s.reg .sp - 1#8)
    let ret := (s.pc.toNat + 0xFFFF) % 2 ^ 16
    handlerField (.jsr ctx) = 0x11 ∧ hi.toNat = 0x100 + (s.reg .sp).toNat ∧
    lo.toNat = 0x100 + ((s.reg .sp).toNat + 255) % 256 ∧
    ∃ t, exec (.jsr ctx) s = .next t ∧ (t.readByte hi).toNat = ret / 256 ∧ (t.readByte lo).toNat = ret % 256 ∧
      t.reg .sp = s.reg .sp - 2#8 ∧ t.pc.toNat = ctx.operand.toNat ∧ Frame [.sp] [] [hi, lo] s t

/-- R40 (an inference the spec marks as its own, over decisions D10, D11, D31). -/
def Obligations.StackedReturnAddressIsLittleEndian : Prop :=
  ∀ (ctx : Ctx) (s : State),
    let hi := stackAddr (s.reg .sp)
    let lo := stackAddr (s.reg .sp - 1#8)
    (s.reg .sp ≠ 0#8 → hi.toNat = lo.toNat + 1) ∧
    (∃ t, exec (.jsr ctx) s = .next t ∧
      (t.readByte lo).toNat + 256 * (t.readByte hi).toNat = (s.pc - 1#16).toNat) ∧
    (∃ t, exec (.brk ctx) s = .next t ∧
      (t.readByte lo).toNat + 256 * (t.readByte hi).toNat = (s.pc + 1#16).toNat)

/-- R97, R98, R99. -/
def Obligations.LoadsTakeTheOperand : Prop :=
  ∀ (ctx : Ctx) (s : State), ∀ k ∈ [(Instr.lda ctx, 0x12, Reg.a), (Instr.ldx ctx, 0x13, Reg.x), (Instr.ldy ctx, 0x14, Reg.y)],
    handlerField k.1 = k.2.1 ∧
    ∃ t, exec k.1 s = .next t ∧ t.reg k.2.2 = ctx.operand ∧ t.flag .sign = ctx.operand.toNat.testBit 7 ∧
      t.flag .zero = decide (ctx.operand.toNat = 0) ∧ t.pc = s.pc ∧ Frame [k.2.2] [.sign, .zero] [] s t

/-- R100, R101. -/
def Obligations.StoresWriteOneByte : Prop :=
  ∀ (ctx : Ctx) (s : State), ∀ k ∈ [(Instr.sta ctx, 0x15, Reg.a), (Instr.stx ctx, 0x16, Reg.x)],
    handlerField k.1 = k.2.1 ∧
    ∃ t, exec k.1 s = .next t ∧ t.readByte ctx.ea = s.reg k.2.2 ∧ t.reg .status = s.reg .status ∧ t.pc = s.pc ∧
      Frame [] [] [storeAddr ctx] s t

/-- R102, R103. -/
def Obligations.TransfersWriteNoFlag : Prop :=
  ∀ (ctx : Ctx) (s : State), ∀ k ∈ [(Instr.tay ctx, 0x1C, Reg.a, Reg.y), (Instr.tya ctx, 0x1D, Reg.y, Reg.a)],
    handlerField k.1 = k.2.1 ∧
    ∃ t, exec k.1 s = .next t ∧ t.reg k.2.2.2 = s.reg k.2.2.1 ∧ t.reg .status = s.reg .status ∧ t.pc = s.pc ∧
      Frame [k.2.2.2] [] [] s t

/-- R104 to R108. Which flag each mnemonic writes, and with which value, is taken by the spec from the 6502 (its decision D9). -/
def Obligations.FlagInstructionsWriteOneFlag : Prop :=
  ∀ (ctx : Ctx) (s : State),
    ∀ k ∈ [(Instr.clc ctx, 0x17, Flag.carry, false), (Instr.cld ctx, 0x18, Flag.decimal, false),
           (Instr.cli ctx, 0x19, Flag.interruptDisable, false), (Instr.clv ctx, 0x1A, Flag.overflow, false),
           (Instr.sec ctx, 0x1B, Flag.carry, true)],
    handlerField k.1 = k.2.1 ∧
    ∃ t, exec k.1 s = .next t ∧ t.flag k.2.2.1 = k.2.2.2 ∧ t.pc = s.pc ∧ Frame [] [k.2.2.1] [] s t

/-- R109, R110. -/
def Obligations.AndOraCombineWithTheOperand : Prop :=
  ∀ (ctx : Ctx) (s : State), ∀ k ∈ [(Instr.and ctx, 0x1E, and), (Instr.ora ctx, 0x1F, or)],
    handlerField k.1 = k.2.1 ∧
    ∃ t, exec k.1 s = .next t ∧
      (∀ n < 8, (t.reg .a).getLsbD n = k.2.2 ((s.reg .a).getLsbD n) (ctx.operand.getLsbD n)) ∧
      t.flag .sign = (t.reg .a).getLsbD 7 ∧ t.flag .zero = decide (t.reg .a = 0#8) ∧ t.pc = s.pc ∧
      Frame [.a] [.sign, .zero] [] s t

/-- R111. The reading of its Z clause is the spec's decision D24. -/
def Obligations.BitTestsTheOperand : Prop :=
  ∀ (ctx : Ctx) (s : State), handlerField (.bit ctx) = 0x20 ∧
    ∃ t, exec (.bit ctx) s = .next t ∧ t.flag .overflow = ctx.operand.toNat.testBit 6 ∧
      t.flag .sign = ctx.operand.toNat.testBit 7 ∧
      (t.flag .zero = true ↔ ∀ n < 8, ¬((s.reg .a).getLsbD n = true ∧ ctx.operand.getLsbD n = true)) ∧
      t.pc = s.pc ∧ Frame [] [.overflow, .sign, .zero] [] s t

/-- R112. -/
def Obligations.NopChangesNothing : Prop :=
  ∀ (ctx : Ctx) (s : State), handlerField (.nop ctx) = 0x21 ∧ exec (.nop ctx) s = .next s

/-- R113 (decisions D10, D36, D40). -/
def Obligations.PushWritesThenMovesDown : Prop :=
  ∀ (s : State) (v : Byte) (slot : Addr), slot.toNat = 0x100 + (s.reg .sp).toNat →
    (s.push v).readByte slot = v ∧ ((s.push v).reg .sp).toNat = ((s.reg .sp).toNat + 255) % 256 ∧
    (s.push v).pc = s.pc ∧ (s.push v).reg .status = s.reg .status ∧ Frame [.sp] [] [slot] s (s.push v)

/-- R114 and its corner case (decisions D10, D36, D40). -/
def Obligations.PullUndoesPush : Prop :=
  (∀ (s : State) (slot : Addr), slot.toNat = 0x100 + ((s.reg .sp).toNat + 1) % 256 →
    s.pulled = s.readByte slot ∧ (s.popped.reg .sp).toNat = ((s.reg .sp).toNat + 1) % 256 ∧
    s.popped.pc = s.pc ∧ s.popped.reg .status = s.reg .status ∧ Frame [.sp] [] [] s s.popped) ∧
  (∀ (s : State) (v : Byte), (s.push v).pulled = v ∧ (s.push v).popped.reg .sp = s.reg .sp) ∧
  (∀ s : State, (s.popped.push s.pulled).reg .sp = s.reg .sp ∧
    ∀ addr : Addr, (s.popped.push s.pulled).readByte addr = s.readByte addr)

/-- R115. What is pushed, where, and the wrap of pc are the spec's decisions D11, D10 and D15. -/
def Obligations.BrkStacksPcAndStatus : Prop :=
  ∀ (ctx : Ctx) (s : State),
    let hi := stackAddr (s.reg .sp)
    let lo := stackAddr (s.reg .sp - 1#8)
    let st := stackAddr (s.reg .sp - 2#8)
    let ret := (s.pc.toNat + 1) % 2 ^ 16
    handlerField (.brk ctx) = 0x22 ∧ hi.toNat = 0x100 + (s.reg .sp).toNat ∧
    lo.toNat = 0x100 + ((s.reg .sp).toNat + 255) % 256 ∧ st.toNat = 0x100 + ((s.reg .sp).toNat + 254) % 256 ∧
    ∃ t, exec (.brk ctx) s = .next t ∧ (t.readByte hi).toNat = ret / 256 ∧ (t.readByte lo).toNat = ret % 256 ∧
      t.readByte st = s.reg .status ∧ t.reg .sp = s.reg .sp - 3#8 ∧ t.flag .breakFlag = true ∧
      t.flag .decimal = true ∧ t.pc.toNat = ret ∧ Frame [.sp] [.breakFlag, .decimal] [hi, lo, st] s t

/-- R116. The flags and the slot are the spec's decisions D12 and D10. -/
def Obligations.PlaPullsTheAccumulator : Prop :=
  ∀ (ctx : Ctx) (s : State),
    let v := s.readByte (stackAddr (s.reg .sp + 1#8))
    handlerField (.pla ctx) = 0x23 ∧
    ∃ t, exec (.pla ctx) s = .next t ∧ t.reg .a = v ∧ t.reg .sp = s.reg .sp + 1#8 ∧
      t.flag .sign = v.toNat.testBit 7 ∧ t.flag .zero = decide (v.toNat = 0) ∧ t.pc = s.pc ∧
      Frame [.a, .sp] [.sign, .zero] [] s t

/-- R117. The effect and the slot are the spec's decisions D13 and D10. -/
def Obligations.PlpPullsTheStatus : Prop :=
  ∀ (ctx : Ctx) (s : State),
    let v := s.readByte (stackAddr (s.reg .sp + 1#8))
    handlerField (.plp ctx) = 0x24 ∧
    ∃ t, exec (.plp ctx) s = .next t ∧ t.reg .sp = s.reg .sp + 1#8 ∧
      (∀ n < 8, (t.reg .status).getLsbD n = if n = 5 then true else v.getLsbD n) ∧ t.pc = s.pc ∧
      Frame [.sp] [.carry, .zero, .interruptDisable, .decimal, .breakFlag, .overflow, .sign] [] s t

/-- R115 and R117 together (decisions D10, D11, D13): BRK pushes the status as it is before B and D are set. -/
def Obligations.PlpAfterBrkRestoresTheStatus : Prop :=
  ∀ (s : State) (c d : Ctx), s.bit5Set →
    ∃ t u, exec (.brk c) s = .next t ∧ exec (.plp d) t = .next u ∧ u.reg .status = s.reg .status ∧
      u.reg .sp = s.reg .sp - 2#8 ∧ u.pc = s.pc + 1#16

/-- R59 (decisions D17, D22 for the reserved bit and the order). That recording the fault is a next state is log entry 5. -/
def Obligations.SetRegBitMutatesOneBit : Prop :=
  ∀ (s : State) (r i v : Byte) (rest : List Event), Presents s (.operation (.access (.setRegBit r i v))) rest →
    s.bit5Set →
    let u := { s with inbox := rest }
    (4 < r.toNat → step s = .next { u with fault := some .registerName }) ∧
    (r.toNat ≤ 4 → 7 < i.toNat → step s = .next { u with fault := some .bitIndex }) ∧
    (r.toNat = 0 → i.toNat = 5 → step s = .next { u with fault := some .reservedBit }) ∧
    (r.toNat ≤ 4 → i.toNat ≤ 7 → ¬(r.toNat = 0 ∧ i.toNat = 5) → 1 < v.toNat →
      step s = .next { u with fault := some .bitValue }) ∧
    (r.toNat ≤ 4 → i.toNat ≤ 7 → ¬(r.toNat = 0 ∧ i.toNat = 5) → v.toNat ≤ 1 →
      ∃ t, step s = .next t ∧
        (∀ (q : Reg) (n : Nat), n < 8 → (t.reg q).getLsbD n =
          if q.index = r.toNat ∧ n = i.toNat then decide (v.toNat = 1) else (s.reg q).getLsbD n) ∧
        t.pc = s.pc ∧ t.mem = s.mem ∧ t.fault = none ∧ t.inbox = rest ∧ t.portOut = s.portOut)

/-- R60 (decisions D18 and D22 for the index fault and the order of the checks). Where the value is returned is log entry 2; that recording the fault is a next state is log entry 5. -/
def Obligations.GetRegBitReturnsTheBit : Prop :=
  ∀ (s : State) (r i : Byte) (rest : List Event), Presents s (.operation (.access (.getRegBit r i))) rest →
    let u := { s with inbox := rest }
    (4 < r.toNat → step s = .next { u with fault := some .registerName }) ∧
    (r.toNat ≤ 4 → 7 < i.toNat → step s = .next { u with fault := some .bitIndex }) ∧
    (∀ q : Reg, q.index = r.toNat → i.toNat ≤ 7 →
      step s = .next { u with portOut := some (if (s.reg q).getLsbD i.toNat then 1#8 else 0#8) })

/-- R61. The order of the checks is the spec's decision D22; that recording the fault is a next state is log entry 5. -/
def Obligations.SetFlagWritesOneFlag : Prop :=
  ∀ (s : State) (f v : Byte) (rest : List Event), Presents s (.operation (.access (.setFlag f v))) rest → s.bit5Set →
    let u := { s with inbox := rest }
    (7 < f.toNat → step s = .next { u with fault := some .bitIndex }) ∧
    (f.toNat = 5 → step s = .next { u with fault := some .reservedBit }) ∧
    (f.toNat ≤ 7 → f.toNat ≠ 5 → 1 < v.toNat → step s = .next { u with fault := some .bitValue }) ∧
    (f.toNat ≤ 7 → f.toNat ≠ 5 → v.toNat ≤ 1 →
      ∃ t, step s = .next t ∧
        (∀ n < 8, (t.reg .status).getLsbD n =
          if n = f.toNat then decide (v.toNat = 1) else (s.reg .status).getLsbD n) ∧
        t = { u with status := t.status })

/-- R62 (decisions D18 and D22 for the index fault and the order of the checks). Where the value is returned is log entry 2; that recording the fault is a next state is log entry 5. -/
def Obligations.GetFlagReturnsTheFlag : Prop :=
  ∀ (s : State) (f : Byte) (rest : List Event), Presents s (.operation (.access (.getFlag f))) rest →
    let u := { s with inbox := rest }
    (7 < f.toNat → step s = .next { u with fault := some .bitIndex }) ∧
    (f.toNat = 5 → step s = .next { u with fault := some .reservedBit }) ∧
    (f.toNat ≤ 7 → f.toNat ≠ 5 →
      step s = .next { u with portOut := some (if (s.reg .status).getLsbD f.toNat then 1#8 else 0#8) })

/-- R63. Bit 5 of a whole status write is the spec's decision D16; that recording the fault is a next state is log entry 5. -/
def Obligations.SetRegByteWritesTheRegister : Prop :=
  ∀ (s : State) (r b : Byte) (rest : List Event), Presents s (.operation (.access (.setRegByte r b))) rest →
    let u := { s with inbox := rest }
    (4 < r.toNat → step s = .next { u with fault := some .registerName }) ∧
    (∀ q : Reg, q.index = r.toNat → ∃ t, step s = .next t ∧
      (t.reg q) = (if q = .status then b ||| 0x20#8 else b) ∧ (∀ p : Reg, p ≠ q → t.reg p = s.reg p) ∧
      t.pc = s.pc ∧ t.mem = s.mem ∧ t.fault = none ∧ t.inbox = rest ∧ t.portOut = s.portOut)

/-- R64. Where the value is returned is log entry 2; that recording the fault is a next state is log entry 5. -/
def Obligations.GetRegByteReturnsTheRegister : Prop :=
  ∀ (s : State) (r : Byte) (rest : List Event), Presents s (.operation (.access (.getRegByte r))) rest →
    let u := { s with inbox := rest }
    (4 < r.toNat → step s = .next { u with fault := some .registerName }) ∧
    (∀ q : Reg, q.index = r.toNat → step s = .next { u with portOut := some (s.reg q) })

/-- R65 (a), (b) (an inference the spec marks as its own, over decisions D16, D17), as runs of two steps. The list of the two calls and portOut are the model's (log entries 1 and 2). -/
def Obligations.AccessorRoundTrips : Prop :=
  (∀ (s : State) (r i v : Byte), s.fault = none → r.toNat ≤ 4 → i.toNat ≤ 7 → ¬(r.toNat = 0 ∧ i.toNat = 5) →
    v.toNat ≤ 1 → s.inbox = [.operation (.access (.setRegBit r i v)), .operation (.access (.getRegBit r i))] →
    ∃ t, Host.Core.run core 2 s = .next t ∧ t.portOut = some v) ∧
  (∀ (s : State) (r b : Byte), s.fault = none → r.toNat ≤ 4 →
    s.inbox = [.operation (.access (.setRegByte r b)), .operation (.access (.getRegByte r))] →
    ∃ t, Host.Core.run core 2 s = .next t ∧ t.portOut = some (if r = 0#8 then b ||| 0x20#8 else b))

/-- R57, R58 (decisions D17, D18, D22): Accessor.wellFormed says the legal arguments without reference to the machine. That a faulting call too has a next state is log entry 5. -/
def Obligations.AccessorFaultsExactlyOnIllegalArguments : Prop :=
  ∀ (s : State) (call : Accessor) (rest : List Event), Presents s (.operation (.access call)) rest →
    ∃ t, step s = .next t ∧ (t.fault = none ↔ call.wellFormed = true)

/-- The model's canonical form of memory (log entry 6): equal memories are equal data. -/
def Obligations.EqualMemoriesAreEqualData : Prop :=
  ∀ m n : Memory, Memory.wf m → Memory.wf n → (∀ addr : Nat, Memory.read m addr = Memory.read n addr) → m = n

/-- R36, R39: every address is an idempotent byte of a plain array. Equality of lists is the model's (log entry 6). -/
def Obligations.MemoryWritesBehaveAsAnArray : Prop :=
  ∀ (m : Memory) (p q : Nat) (v w : Byte), Memory.wf m → p < Config.memorySize → q < Config.memorySize →
    Memory.write m p (Memory.read m p) = m ∧
    Memory.write (Memory.write m p v) p w = Memory.write m p w ∧
    (p ≠ q → Memory.write (Memory.write m p v) q w = Memory.write (Memory.write m q w) p v)

/-- R128 (decision D34): what the dump reads. Its text is not modelled (log entry 7). -/
def Obligations.DiagnosticsReadOutShowsTheRegisters : Prop :=
  ∀ s : State, s.diagnostics.pc = s.pc ∧ s.diagnostics.status = s.reg .status ∧ s.diagnostics.sp = s.reg .sp ∧
    s.diagnostics.a = s.reg .a ∧ s.diagnostics.x = s.reg .x ∧ s.diagnostics.y = s.reg .y
end

