-- ==== Sys2Proof/Laws/Decode.lean ====
section
/-! SUPPORT. The laws of the control word: its fields and its codes, one lemma per table or layout. -/
namespace Sys2Proof

/-- The fields of a word put together from fields are those fields (R48). -/
@[simp] theorem Fields.ofWord_toWord (f : Fields) : Fields.ofWord f.toWord = f := by
  obtain ⟨h, m, rsv, operand, ea⟩ := f
  simp only [Fields.ofWord, Fields.toWord, Fields.mk.injEq]
  refine ⟨?_, ?_, ?_, ?_, ?_⟩ <;> apply BitVec.eq_of_getLsbD_eq <;> intro k hk <;>
    simp only [BitVec.getLsbD_extractLsb', BitVec.getLsbD_append, hk, decide_true, Bool.true_and] <;>
    split_ifs <;> first | omega | (congr 1; omega)

/-- A word is the one put together from its fields: the five fields cover all 40 bits (R48). -/
@[simp] theorem Fields.toWord_ofWord (cw : CtrlWord) : (Fields.ofWord cw).toWord = cw := by
  apply BitVec.eq_of_getLsbD_eq
  intro k hk
  simp only [Fields.ofWord, Fields.toWord, BitVec.getLsbD_append, BitVec.getLsbD_extractLsb']
  split_ifs <;> rw [decide_eq_true (by omega), Bool.true_and] <;> congr 1 <;> omega

/-- A mode's code stands for that mode (R51). -/
@[simp] theorem Mode.ofCode_code (m : Mode) : Mode.ofCode m.code = some m := by cases m <;> rfl

/-- A mode that a code stands for has that code (R51). -/
theorem Mode.code_of_ofCode {c : BitVec 4} {m : Mode} (h : Mode.ofCode c = some m) : m.code = c := by
  revert c; cases m <;> decide

/-- A mode code stands for a mode exactly when it is at most 12 (R51, R54). -/
theorem Mode.ofCode_eq_none_iff (c : BitVec 4) : Mode.ofCode c = none ↔ 12#4 < c := by
  revert c; decide

/-- An instruction's handler code selects it (R50). -/
@[simp] theorem Instr.ofHandler_handlerCode (i : Instr) : Instr.ofHandler i.handlerCode i.ctx = some i := by
  cases i <;> rfl

/-- Every handler code of R50 passes the handler check, whatever the other fields (R54 item 2). -/
theorem Instr.handlerCode_assigned (i : Instr) : 0x01#8 ≤ i.handlerCode ∧ i.handlerCode ≤ 0x24#8 := by
  cases i <;> simp [Instr.handlerCode]

/-- Every mode code of R51 passes the mode check (R54 item 3). -/
theorem Mode.code_legal (m : Mode) : m.code ≤ 12#4 := by cases m <;> decide

/-- The instruction a handler code selects has that code and the given context (R50). -/
theorem Instr.handlerCode_of_ofHandler {h : BitVec 8} {ctx : Ctx} {i : Instr} (e : Instr.ofHandler h ctx = some i) :
    i.handlerCode = h ∧ i.ctx = ctx := by
  unfold Instr.ofHandler at e
  split at e <;> first
    | (rename_i hk; obtain rfl := Option.some.inj e; exact ⟨BitVec.eq_of_toNat_eq hk.symm, rfl⟩)
    | simp at e

/-- A handler code selects an instruction exactly when it is one of 0x01 to 0x24 (R50, R54 item 2). -/
theorem Instr.ofHandler_eq_none_iff (h : BitVec 8) (ctx : Ctx) :
    Instr.ofHandler h ctx = none ↔ h.toNat = 0 ∨ 0x25 ≤ h.toNat := by
  unfold Instr.ofHandler
  split <;> simp only [reduceCtorEq, false_iff, true_iff, imp_false] at * <;> omega

/-- A word of bits put together from two, as a number. -/
theorem toNat_append_eq {v w : Nat} (x : BitVec v) (y : BitVec w) : (x ++ y).toNat = x.toNat * 2 ^ w + y.toNat := by
  rw [BitVec.toNat_append, ← Nat.shiftLeft_add_eq_or_of_lt y.isLt, Nat.shiftLeft_eq]

/-- The control word as a number: each field at its place (R48). -/
theorem Fields.toNat_toWord (f : Fields) :
    f.toWord.toNat =
      f.h.toNat * 2 ^ 32 + f.m.toNat * 2 ^ 28 + f.rsv.toNat * 2 ^ 24 + f.operand.toNat * 2 ^ 16 + f.ea.toNat := by
  unfold Fields.toWord
  simp only [toNat_append_eq]
  omega

/-- The fields of an instruction's control word (R48). -/
@[simp] theorem Fields.ofWord_encode (i : Instr) : Fields.ofWord (encode i) = i.fields :=
  Fields.ofWord_toWord i.fields

end Sys2Proof
end

