-- ==== Sys2Proof/Laws/Flags.lean ====
section
/-! SUPPORT. What the operand forms are, and the primitives of the flag computation engine as numbers: the lemmas by
which a claim about a handler becomes arithmetic. -/
namespace Sys2Proof.Machine

/-! Operand forms (R53). -/

@[simp] theorem inputByte_eq (ctx : Ctx) : inputByte ctx = ctx.operand := rfl
@[simp] theorem compareInput_eq (ctx : Ctx) : compareInput ctx = wideAddr ctx.ea := rfl
@[simp] theorem branchTarget_eq (ctx : Ctx) : branchTarget ctx = ctx.ea := rfl
@[simp] theorem callTarget_eq (ctx : Ctx) : callTarget ctx = ctx.operand.setWidth 16 := rfl
@[simp] theorem storeAddr_eq (ctx : Ctx) : storeAddr ctx = ctx.ea := rfl

/-- The mask of JMP has no effect on a 16-bit address (R93). -/
@[simp] theorem jumpTarget_eq (ctx : Ctx) : jumpTarget ctx = ctx.ea := by
  apply BitVec.eq_of_toNat_eq
  rw [jumpTarget, BitVec.toNat_and]
  exact (Nat.and_two_pow_sub_one_eq_mod ctx.ea.toNat 16).trans (Nat.mod_eq_of_lt ctx.ea.isLt)

/-! Values taken into WIDE and masked back (R12, R67). -/

@[simp] theorem toNat_wide (v : Byte) : (wide v).toNat = v.toNat := by
  have := v.isLt
  simp only [wide, BitVec.toNat_setWidth]
  omega

@[simp] theorem toNat_wideAddr (v : Addr) : (wideAddr v).toNat = v.toNat := by
  have := v.isLt
  simp only [wideAddr, BitVec.toNat_setWidth]
  omega

@[simp] theorem toNat_wideBit (b : Bool) : (wideBit b).toNat = b.toNat := by cases b <;> rfl

@[simp] theorem toNat_trunc8 (r : Wide) : (trunc8 r).toNat = r.toNat % 256 := by simp [trunc8]

/-- The low nibble of a WIDE value (R15). -/
theorem toNat_lowNibble (r : Wide) : (r &&& 0xF#32).toNat = r.toNat % 16 := by
  rw [BitVec.toNat_and]
  exact Nat.and_two_pow_sub_one_eq_mod r.toNat 4

/-- The mask 0x80 looks at bit 7 alone (R71, R72). -/
theorem and_signMask_eq_zero_iff (r : Wide) : r &&& 0x80#32 = 0#32 ↔ r.getLsbD 7 = false := by
  constructor
  · intro h
    have := congrArg (fun v => v.getLsbD 7) h
    simpa using this
  · intro h
    apply BitVec.eq_of_getLsbD_eq
    intro k hk
    have hm : (0x80#32).getLsbD k = decide (k = 7) := by interval_cases k <;> decide
    rw [BitVec.getLsbD_and, hm]
    by_cases h7 : k = 7
    · subst h7; rw [h]; rfl
    · simp [h7]

/-- Zero as a number: the low 8 bits are 0 (R74). -/
theorem zeroOf_eq (r : Wide) : zeroOf r = decide (r.toNat % 256 = 0) := by
  rw [zeroOf, decide_eq_decide, ← BitVec.toNat_inj, toNat_trunc8]
  rfl

end Sys2Proof.Machine
end

