-- ==== Sys2Proof/Laws/Memory.lean ====
section
/-! SUPPORT. The laws of the memory operations: what a read after a write gives, for every list, and that a write
keeps the canonical form. -/
namespace Sys2Proof.Machine

theorem Memory.read_erase (m : Memory) (p q : Nat) :
    Memory.read (Memory.erase m p) q = if q = p then Config.blankByte else Memory.read m q := by
  induction m with
  | nil => simp [Memory.erase, Memory.read]
  | cons c rest ih =>
    by_cases hc : c.1 = p
    · by_cases hq : q = p
      · subst hq; simp [Memory.erase, hc, ih]
      · have : ¬ p = q := fun h => hq h.symm
        simp [Memory.erase, hc, ih, hq, Memory.read, this]
    · by_cases hq : q = p
      · subst hq
        simp [Memory.erase, hc, ih, Memory.read]
      · by_cases hcq : c.1 = q <;> simp [Memory.erase, hc, ih, Memory.read, hcq, hq]

theorem Memory.mem_erase {m : Memory} {p : Nat} {c : Host.Cell} :
    c ∈ Memory.erase m p ↔ c ∈ m ∧ c.1 ≠ p := by
  induction m with
  | nil => simp [Memory.erase]
  | cons d rest ih =>
    by_cases hd : d.1 = p
    · simp only [Memory.erase, hd, if_true, ih, List.mem_cons]
      constructor
      · exact fun h => ⟨.inr h.1, h.2⟩
      · rintro ⟨rfl | h, hne⟩
        · exact absurd hd hne
        · exact ⟨h, hne⟩
    · simp only [Memory.erase, hd, if_false, List.mem_cons, ih]
      constructor
      · rintro (rfl | h)
        · exact ⟨.inl rfl, hd⟩
        · exact ⟨.inr h.1, h.2⟩
      · rintro ⟨rfl | h, hne⟩
        · exact .inl rfl
        · exact .inr ⟨h, hne⟩

theorem Memory.mem_insert {m : Memory} {p : Nat} {v : Byte} {c : Host.Cell} :
    c ∈ Memory.insert m p v ↔ c = (p, v) ∨ c ∈ m := by
  induction m with
  | nil => simp [Memory.insert]
  | cons d rest ih =>
    by_cases hd : p < d.1
    · simp [Memory.insert, hd]
    · simp only [Memory.insert, hd, if_false, List.mem_cons, ih]
      tauto

theorem Memory.read_insert (m : Memory) (p q : Nat) (v : Byte) (fresh : ∀ c ∈ m, c.1 ≠ p) :
    Memory.read (Memory.insert m p v) q = if q = p then v else Memory.read m q := by
  induction m with
  | nil => by_cases h : p = q <;> simp [Memory.insert, Memory.read, h, eq_comm (a := q)]
  | cons d rest ih =>
    have ih' := ih (fun c hc => fresh c (List.mem_cons_of_mem d hc))
    have hdp : d.1 ≠ p := fresh d (List.mem_cons_self ..)
    by_cases hd : p < d.1
    · by_cases h : q = p
      · simp [Memory.insert, hd, Memory.read, h]
      · have : ¬ p = q := fun e => h e.symm
        simp [Memory.insert, hd, Memory.read, h, this]
    · by_cases h : q = p
      · subst h; simp [Memory.insert, hd, Memory.read, ih', hdp]
      · simp [Memory.insert, hd, Memory.read, ih', h]

/-- A read after a write gives the byte written at its address and the old byte everywhere else (R35, R36). -/
theorem Memory.read_write (m : Memory) (p q : Nat) (v : Byte) :
    Memory.read (Memory.write m p v) q = if q = p then v else Memory.read m q := by
  unfold Memory.write
  by_cases hv : v = Config.blankByte
  · rw [if_pos hv, Memory.read_erase, hv]
  · rw [if_neg hv, Memory.read_insert _ _ _ _ (fun c hc => (Memory.mem_erase.mp hc).2), Memory.read_erase]
    by_cases h : q = p <;> simp [h]

theorem Memory.erase_sorted {m : Memory} {p : Nat} (h : m.Pairwise (fun c d => c.1 < d.1)) :
    (Memory.erase m p).Pairwise (fun c d => c.1 < d.1) := by
  induction m with
  | nil => simp [Memory.erase]
  | cons d rest ih =>
    obtain ⟨hd, hrest⟩ := List.pairwise_cons.mp h
    by_cases hp : d.1 = p
    · simpa [Memory.erase, hp] using ih hrest
    · simp only [Memory.erase, hp, if_false, List.pairwise_cons]
      exact ⟨fun c hc => hd c (Memory.mem_erase.mp hc).1, ih hrest⟩

theorem Memory.insert_sorted {m : Memory} {p : Nat} {v : Byte} (h : m.Pairwise (fun c d => c.1 < d.1))
    (fresh : ∀ c ∈ m, c.1 ≠ p) : (Memory.insert m p v).Pairwise (fun c d => c.1 < d.1) := by
  induction m with
  | nil => simp [Memory.insert]
  | cons d rest ih =>
    obtain ⟨hd, hrest⟩ := List.pairwise_cons.mp h
    by_cases hp : p < d.1
    · simp only [Memory.insert, hp, if_true, List.pairwise_cons, List.mem_cons]
      refine ⟨?_, hd, hrest⟩
      rintro c (rfl | hc)
      · exact hp
      · exact lt_trans hp (hd c hc)
    · simp only [Memory.insert, hp, if_false, List.pairwise_cons]
      refine ⟨fun c hc => ?_, ih hrest (fun c hc => fresh c (List.mem_cons_of_mem d hc))⟩
      rcases Memory.mem_insert.mp hc with rfl | hc
      · exact lt_of_le_of_ne (not_lt.mp hp) (fresh d (List.mem_cons_self ..))
      · exact hd c hc

/-- A write to an address of the address space keeps the canonical form. -/
theorem Memory.wf_write {m : Memory} {p : Nat} {v : Byte} (h : Memory.wf m) (hp : p < Config.memorySize) :
    Memory.wf (Memory.write m p v) := by
  have fresh : ∀ c ∈ Memory.erase m p, c.1 ≠ p := fun c hc => (Memory.mem_erase.mp hc).2
  unfold Memory.write
  by_cases hv : v = Config.blankByte
  · rw [if_pos hv]
    exact ⟨Memory.erase_sorted h.1, fun c hc => h.2 c (Memory.mem_erase.mp hc).1⟩
  · rw [if_neg hv]
    refine ⟨Memory.insert_sorted (Memory.erase_sorted h.1) fresh, fun c hc => ?_⟩
    rcases Memory.mem_insert.mp hc with rfl | hc
    · exact ⟨hp, hv⟩
    · exact h.2 c (Memory.mem_erase.mp hc).1

theorem Memory.wf_nil : Memory.wf [] := by simp [Memory.wf]

end Sys2Proof.Machine
end

