-- ==== Sys2Proof/Laws/State.lean ====
section
/-! SUPPORT. For every update of the state, what each field holds after it. These are the simp set over State: no
later proof unfolds a record update. -/
namespace Sys2Proof.Machine

@[simp] theorem State.setPc_pc (s : State) (v : Addr) : (s.setPc v).pc = v := rfl
@[simp] theorem State.setPc_status (s : State) (v : Addr) : (s.setPc v).status = s.status := rfl
@[simp] theorem State.setPc_sp (s : State) (v : Addr) : (s.setPc v).sp = s.sp := rfl
@[simp] theorem State.setPc_a (s : State) (v : Addr) : (s.setPc v).a = s.a := rfl
@[simp] theorem State.setPc_x (s : State) (v : Addr) : (s.setPc v).x = s.x := rfl
@[simp] theorem State.setPc_y (s : State) (v : Addr) : (s.setPc v).y = s.y := rfl
@[simp] theorem State.setPc_mem (s : State) (v : Addr) : (s.setPc v).mem = s.mem := rfl
@[simp] theorem State.setPc_fault (s : State) (v : Addr) : (s.setPc v).fault = s.fault := rfl
@[simp] theorem State.setPc_inbox (s : State) (v : Addr) : (s.setPc v).inbox = s.inbox := rfl
@[simp] theorem State.setPc_portOut (s : State) (v : Addr) : (s.setPc v).portOut = s.portOut := rfl

@[simp] theorem State.writeByte_pc (s : State) (p : Addr) (v : Byte) : (s.writeByte p v).pc = s.pc := rfl
@[simp] theorem State.writeByte_status (s : State) (p : Addr) (v : Byte) : (s.writeByte p v).status = s.status := rfl
@[simp] theorem State.writeByte_sp (s : State) (p : Addr) (v : Byte) : (s.writeByte p v).sp = s.sp := rfl
@[simp] theorem State.writeByte_a (s : State) (p : Addr) (v : Byte) : (s.writeByte p v).a = s.a := rfl
@[simp] theorem State.writeByte_x (s : State) (p : Addr) (v : Byte) : (s.writeByte p v).x = s.x := rfl
@[simp] theorem State.writeByte_y (s : State) (p : Addr) (v : Byte) : (s.writeByte p v).y = s.y := rfl
@[simp] theorem State.writeByte_mem (s : State) (p : Addr) (v : Byte) : (s.writeByte p v).mem = Memory.write s.mem p.toNat v := rfl
@[simp] theorem State.writeByte_fault (s : State) (p : Addr) (v : Byte) : (s.writeByte p v).fault = s.fault := rfl
@[simp] theorem State.writeByte_inbox (s : State) (p : Addr) (v : Byte) : (s.writeByte p v).inbox = s.inbox := rfl
@[simp] theorem State.writeByte_portOut (s : State) (p : Addr) (v : Byte) : (s.writeByte p v).portOut = s.portOut := rfl

@[simp] theorem State.raiseFault_pc (s : State) (code : FaultCode) : (s.raiseFault code).pc = s.pc := rfl
@[simp] theorem State.raiseFault_status (s : State) (code : FaultCode) : (s.raiseFault code).status = s.status := rfl
@[simp] theorem State.raiseFault_sp (s : State) (code : FaultCode) : (s.raiseFault code).sp = s.sp := rfl
@[simp] theorem State.raiseFault_a (s : State) (code : FaultCode) : (s.raiseFault code).a = s.a := rfl
@[simp] theorem State.raiseFault_x (s : State) (code : FaultCode) : (s.raiseFault code).x = s.x := rfl
@[simp] theorem State.raiseFault_y (s : State) (code : FaultCode) : (s.raiseFault code).y = s.y := rfl
@[simp] theorem State.raiseFault_mem (s : State) (code : FaultCode) : (s.raiseFault code).mem = s.mem := rfl
@[simp] theorem State.raiseFault_fault (s : State) (code : FaultCode) : (s.raiseFault code).fault = some code := rfl
@[simp] theorem State.raiseFault_inbox (s : State) (code : FaultCode) : (s.raiseFault code).inbox = s.inbox := rfl
@[simp] theorem State.raiseFault_portOut (s : State) (code : FaultCode) : (s.raiseFault code).portOut = s.portOut := rfl

@[simp] theorem State.returnValue_pc (s : State) (v : Byte) : (s.returnValue v).pc = s.pc := rfl
@[simp] theorem State.returnValue_status (s : State) (v : Byte) : (s.returnValue v).status = s.status := rfl
@[simp] theorem State.returnValue_sp (s : State) (v : Byte) : (s.returnValue v).sp = s.sp := rfl
@[simp] theorem State.returnValue_a (s : State) (v : Byte) : (s.returnValue v).a = s.a := rfl
@[simp] theorem State.returnValue_x (s : State) (v : Byte) : (s.returnValue v).x = s.x := rfl
@[simp] theorem State.returnValue_y (s : State) (v : Byte) : (s.returnValue v).y = s.y := rfl
@[simp] theorem State.returnValue_mem (s : State) (v : Byte) : (s.returnValue v).mem = s.mem := rfl
@[simp] theorem State.returnValue_fault (s : State) (v : Byte) : (s.returnValue v).fault = s.fault := rfl
@[simp] theorem State.returnValue_inbox (s : State) (v : Byte) : (s.returnValue v).inbox = s.inbox := rfl
@[simp] theorem State.returnValue_portOut (s : State) (v : Byte) : (s.returnValue v).portOut = some v := rfl

@[simp] theorem State.setReg_status_pc (s : State) (v : Byte) : (s.setReg .status v).pc = s.pc := rfl
@[simp] theorem State.setReg_status_status (s : State) (v : Byte) : (s.setReg .status v).status = v ||| Config.statusFixed := rfl
@[simp] theorem State.setReg_status_sp (s : State) (v : Byte) : (s.setReg .status v).sp = s.sp := rfl
@[simp] theorem State.setReg_status_a (s : State) (v : Byte) : (s.setReg .status v).a = s.a := rfl
@[simp] theorem State.setReg_status_x (s : State) (v : Byte) : (s.setReg .status v).x = s.x := rfl
@[simp] theorem State.setReg_status_y (s : State) (v : Byte) : (s.setReg .status v).y = s.y := rfl
@[simp] theorem State.setReg_status_mem (s : State) (v : Byte) : (s.setReg .status v).mem = s.mem := rfl
@[simp] theorem State.setReg_status_fault (s : State) (v : Byte) : (s.setReg .status v).fault = s.fault := rfl
@[simp] theorem State.setReg_status_inbox (s : State) (v : Byte) : (s.setReg .status v).inbox = s.inbox := rfl
@[simp] theorem State.setReg_status_portOut (s : State) (v : Byte) : (s.setReg .status v).portOut = s.portOut := rfl

@[simp] theorem State.setReg_sp_pc (s : State) (v : Byte) : (s.setReg .sp v).pc = s.pc := rfl
@[simp] theorem State.setReg_sp_status (s : State) (v : Byte) : (s.setReg .sp v).status = s.status := rfl
@[simp] theorem State.setReg_sp_sp (s : State) (v : Byte) : (s.setReg .sp v).sp = v := rfl
@[simp] theorem State.setReg_sp_a (s : State) (v : Byte) : (s.setReg .sp v).a = s.a := rfl
@[simp] theorem State.setReg_sp_x (s : State) (v : Byte) : (s.setReg .sp v).x = s.x := rfl
@[simp] theorem State.setReg_sp_y (s : State) (v : Byte) : (s.setReg .sp v).y = s.y := rfl
@[simp] theorem State.setReg_sp_mem (s : State) (v : Byte) : (s.setReg .sp v).mem = s.mem := rfl
@[simp] theorem State.setReg_sp_fault (s : State) (v : Byte) : (s.setReg .sp v).fault = s.fault := rfl
@[simp] theorem State.setReg_sp_inbox (s : State) (v : Byte) : (s.setReg .sp v).inbox = s.inbox := rfl
@[simp] theorem State.setReg_sp_portOut (s : State) (v : Byte) : (s.setReg .sp v).portOut = s.portOut := rfl

@[simp] theorem State.setReg_a_pc (s : State) (v : Byte) : (s.setReg .a v).pc = s.pc := rfl
@[simp] theorem State.setReg_a_status (s : State) (v : Byte) : (s.setReg .a v).status = s.status := rfl
@[simp] theorem State.setReg_a_sp (s : State) (v : Byte) : (s.setReg .a v).sp = s.sp := rfl
@[simp] theorem State.setReg_a_a (s : State) (v : Byte) : (s.setReg .a v).a = v := rfl
@[simp] theorem State.setReg_a_x (s : State) (v : Byte) : (s.setReg .a v).x = s.x := rfl
@[simp] theorem State.setReg_a_y (s : State) (v : Byte) : (s.setReg .a v).y = s.y := rfl
@[simp] theorem State.setReg_a_mem (s : State) (v : Byte) : (s.setReg .a v).mem = s.mem := rfl
@[simp] theorem State.setReg_a_fault (s : State) (v : Byte) : (s.setReg .a v).fault = s.fault := rfl
@[simp] theorem State.setReg_a_inbox (s : State) (v : Byte) : (s.setReg .a v).inbox = s.inbox := rfl
@[simp] theorem State.setReg_a_portOut (s : State) (v : Byte) : (s.setReg .a v).portOut = s.portOut := rfl

@[simp] theorem State.setReg_x_pc (s : State) (v : Byte) : (s.setReg .x v).pc = s.pc := rfl
@[simp] theorem State.setReg_x_status (s : State) (v : Byte) : (s.setReg .x v).status = s.status := rfl
@[simp] theorem State.setReg_x_sp (s : State) (v : Byte) : (s.setReg .x v).sp = s.sp := rfl
@[simp] theorem State.setReg_x_a (s : State) (v : Byte) : (s.setReg .x v).a = s.a := rfl
@[simp] theorem State.setReg_x_x (s : State) (v : Byte) : (s.setReg .x v).x = v := rfl
@[simp] theorem State.setReg_x_y (s : State) (v : Byte) : (s.setReg .x v).y = s.y := rfl
@[simp] theorem State.setReg_x_mem (s : State) (v : Byte) : (s.setReg .x v).mem = s.mem := rfl
@[simp] theorem State.setReg_x_fault (s : State) (v : Byte) : (s.setReg .x v).fault = s.fault := rfl
@[simp] theorem State.setReg_x_inbox (s : State) (v : Byte) : (s.setReg .x v).inbox = s.inbox := rfl
@[simp] theorem State.setReg_x_portOut (s : State) (v : Byte) : (s.setReg .x v).portOut = s.portOut := rfl

@[simp] theorem State.setReg_y_pc (s : State) (v : Byte) : (s.setReg .y v).pc = s.pc := rfl
@[simp] theorem State.setReg_y_status (s : State) (v : Byte) : (s.setReg .y v).status = s.status := rfl
@[simp] theorem State.setReg_y_sp (s : State) (v : Byte) : (s.setReg .y v).sp = s.sp := rfl
@[simp] theorem State.setReg_y_a (s : State) (v : Byte) : (s.setReg .y v).a = s.a := rfl
@[simp] theorem State.setReg_y_x (s : State) (v : Byte) : (s.setReg .y v).x = s.x := rfl
@[simp] theorem State.setReg_y_y (s : State) (v : Byte) : (s.setReg .y v).y = v := rfl
@[simp] theorem State.setReg_y_mem (s : State) (v : Byte) : (s.setReg .y v).mem = s.mem := rfl
@[simp] theorem State.setReg_y_fault (s : State) (v : Byte) : (s.setReg .y v).fault = s.fault := rfl
@[simp] theorem State.setReg_y_inbox (s : State) (v : Byte) : (s.setReg .y v).inbox = s.inbox := rfl
@[simp] theorem State.setReg_y_portOut (s : State) (v : Byte) : (s.setReg .y v).portOut = s.portOut := rfl

/-! A register write, whichever the register, touches nothing but registers. -/

@[simp] theorem State.setReg_any_pc (s : State) (r : Reg) (v : Byte) : (s.setReg r v).pc = s.pc := by
  cases r <;> rfl
@[simp] theorem State.setReg_any_mem (s : State) (r : Reg) (v : Byte) : (s.setReg r v).mem = s.mem := by
  cases r <;> rfl
@[simp] theorem State.setReg_any_fault (s : State) (r : Reg) (v : Byte) : (s.setReg r v).fault = s.fault := by
  cases r <;> rfl
@[simp] theorem State.setReg_any_inbox (s : State) (r : Reg) (v : Byte) : (s.setReg r v).inbox = s.inbox := by
  cases r <;> rfl
@[simp] theorem State.setReg_any_portOut (s : State) (r : Reg) (v : Byte) : (s.setReg r v).portOut = s.portOut := by
  cases r <;> rfl

/-! A flag write touches nothing but the status register. -/

@[simp] theorem State.setFlag_pc (s : State) (f : Flag) (b : Bool) : (s.setFlag f b).pc = s.pc := rfl
@[simp] theorem State.setFlag_sp (s : State) (f : Flag) (b : Bool) : (s.setFlag f b).sp = s.sp := rfl
@[simp] theorem State.setFlag_a (s : State) (f : Flag) (b : Bool) : (s.setFlag f b).a = s.a := rfl
@[simp] theorem State.setFlag_x (s : State) (f : Flag) (b : Bool) : (s.setFlag f b).x = s.x := rfl
@[simp] theorem State.setFlag_y (s : State) (f : Flag) (b : Bool) : (s.setFlag f b).y = s.y := rfl
@[simp] theorem State.setFlag_mem (s : State) (f : Flag) (b : Bool) : (s.setFlag f b).mem = s.mem := rfl
@[simp] theorem State.setFlag_fault (s : State) (f : Flag) (b : Bool) : (s.setFlag f b).fault = s.fault := rfl
@[simp] theorem State.setFlag_inbox (s : State) (f : Flag) (b : Bool) : (s.setFlag f b).inbox = s.inbox := rfl
@[simp] theorem State.setFlag_portOut (s : State) (f : Flag) (b : Bool) : (s.setFlag f b).portOut = s.portOut := rfl

/-! The stack primitives. -/

@[simp] theorem State.push_pc (s : State) (v : Byte) : (s.push v).pc = s.pc := rfl
@[simp] theorem State.push_status (s : State) (v : Byte) : (s.push v).status = s.status := rfl
@[simp] theorem State.push_sp (s : State) (v : Byte) : (s.push v).sp = s.sp - 1#8 := rfl
@[simp] theorem State.push_a (s : State) (v : Byte) : (s.push v).a = s.a := rfl
@[simp] theorem State.push_x (s : State) (v : Byte) : (s.push v).x = s.x := rfl
@[simp] theorem State.push_y (s : State) (v : Byte) : (s.push v).y = s.y := rfl
@[simp] theorem State.push_mem (s : State) (v : Byte) : (s.push v).mem = Memory.write s.mem (stackAddr s.sp).toNat v := rfl
@[simp] theorem State.push_fault (s : State) (v : Byte) : (s.push v).fault = s.fault := rfl
@[simp] theorem State.push_inbox (s : State) (v : Byte) : (s.push v).inbox = s.inbox := rfl
@[simp] theorem State.push_portOut (s : State) (v : Byte) : (s.push v).portOut = s.portOut := rfl

@[simp] theorem State.popped_pc (s : State) : s.popped.pc = s.pc := rfl
@[simp] theorem State.popped_status (s : State) : s.popped.status = s.status := rfl
@[simp] theorem State.popped_sp (s : State) : s.popped.sp = s.sp + 1#8 := rfl
@[simp] theorem State.popped_a (s : State) : s.popped.a = s.a := rfl
@[simp] theorem State.popped_x (s : State) : s.popped.x = s.x := rfl
@[simp] theorem State.popped_y (s : State) : s.popped.y = s.y := rfl
@[simp] theorem State.popped_mem (s : State) : s.popped.mem = s.mem := rfl
@[simp] theorem State.popped_fault (s : State) : s.popped.fault = s.fault := rfl
@[simp] theorem State.popped_inbox (s : State) : s.popped.inbox = s.inbox := rfl
@[simp] theorem State.popped_portOut (s : State) : s.popped.portOut = s.portOut := rfl

/-! RESET. -/

@[simp] theorem State.applyReset_pc (s : State) : s.applyReset.pc = State.reset.pc := rfl
@[simp] theorem State.applyReset_status (s : State) : s.applyReset.status = State.reset.status := rfl
@[simp] theorem State.applyReset_sp (s : State) : s.applyReset.sp = State.reset.sp := rfl
@[simp] theorem State.applyReset_a (s : State) : s.applyReset.a = State.reset.a := rfl
@[simp] theorem State.applyReset_x (s : State) : s.applyReset.x = State.reset.x := rfl
@[simp] theorem State.applyReset_y (s : State) : s.applyReset.y = State.reset.y := rfl
@[simp] theorem State.applyReset_mem (s : State) : s.applyReset.mem = State.reset.mem := rfl
@[simp] theorem State.applyReset_fault (s : State) : s.applyReset.fault = State.reset.fault := rfl
@[simp] theorem State.applyReset_inbox (s : State) : s.applyReset.inbox = s.inbox := rfl
@[simp] theorem State.applyReset_portOut (s : State) : s.applyReset.portOut = State.reset.portOut := rfl

end Sys2Proof.Machine
end

