-- ==== Sys2Proof/Laws/Ops.lean ====
section
/-! SUPPORT. One lemma for each shared operation that says all it can do to registers, flags, bytes and status bit
5; then the frame of each, and how frames compose. -/
namespace Sys2Proof.Machine

/-! Registers. -/

@[simp] theorem State.reg_setReg_same (s : State) (r : Reg) (v : Byte) (h : r ≠ .status) :
    (s.setReg r v).reg r = v := by
  cases r <;> first | rfl | exact absurd rfl h

@[simp] theorem State.reg_setReg_status (s : State) (v : Byte) :
    (s.setReg .status v).reg .status = v ||| Config.statusFixed := rfl

@[simp] theorem State.reg_setReg_other (s : State) (r q : Reg) (v : Byte) (h : q ≠ r) :
    (s.setReg r v).reg q = s.reg q := by
  cases r <;> cases q <;> first | rfl | exact absurd rfl h

@[simp] theorem State.reg_setPc (s : State) (v : Addr) (r : Reg) : (s.setPc v).reg r = s.reg r := by
  cases r <;> rfl

@[simp] theorem State.reg_writeByte (s : State) (p : Addr) (v : Byte) (r : Reg) :
    (s.writeByte p v).reg r = s.reg r := by
  cases r <;> rfl

/-- A register argument up to 4 names a register, and no other does (R57). -/
theorem Reg.ofIndex_eq_none_iff (r : Byte) : Reg.ofIndex r = none ↔ 4#8 < r := by
  revert r; decide

/-- The register an argument names is the one with that index (R23). -/
theorem Reg.ofIndex_eq_some_iff (r : Byte) (q : Reg) : Reg.ofIndex r = some q ↔ r.toNat = q.index := by
  revert r; cases q <;> decide

/-! Bits and flags. -/

/-- Replacing bit `i` of a byte gives that bit its new value and keeps the others (R59). -/
theorem getLsbD_putBit (b : Byte) (i k : Nat) (v : Bool) (hi : i < 8) :
    (putBit b i v).getLsbD k = if k = i then v else b.getLsbD k := by
  by_cases hk : k < 8
  · rcases lt_trichotomy k i with h | rfl | h
    · cases v <;> simp [putBit, hk, h, h.ne]
    · cases v <;> simp [putBit, hk]
    · have h0 : k - i ≠ 0 := by omega
      cases v <;> simp [putBit, hk, h.ne', h0, Nat.not_lt.mpr h.le]
  · have h : k ≠ i := by omega
    simp [h, BitVec.getLsbD_of_ge _ _ (Nat.le_of_not_lt hk)]

theorem getLsbD_or_statusFixed (b : Byte) (k : Nat) :
    (b ||| Config.statusFixed).getLsbD k = (b.getLsbD k || decide (k = 5)) := by
  by_cases hk : k < 8
  · interval_cases k <;> simp [Config.statusFixed]
  · have h : k ≠ 5 := by omega
    simp [h, BitVec.getLsbD_of_ge _ _ (Nat.le_of_not_lt hk)]

theorem Flag.bit_lt (f : Flag) : f.bit < 8 := by cases f <;> decide
theorem Flag.bit_ne_five (f : Flag) : f.bit ≠ 5 := by cases f <;> decide
theorem Flag.bit_injective {f g : Flag} (h : f.bit = g.bit) : f = g := by
  cases f <;> cases g <;> first | rfl | exact absurd h (by decide)

/-- A flag write gives that flag its new value and keeps the other flags (R61). -/
@[simp] theorem State.flag_setFlag (s : State) (f g : Flag) (b : Bool) :
    (s.setFlag f b).flag g = if g = f then b else s.flag g := by
  unfold State.setFlag State.setRegBit State.flag State.regBit
  rw [State.reg_setReg_status, getLsbD_or_statusFixed, getLsbD_putBit _ _ _ _ f.bit_lt]
  by_cases h : g = f
  · subst h; simp [g.bit_ne_five]
  · have : g.bit ≠ f.bit := fun e => h (Flag.bit_injective e)
    simp [this, h, g.bit_ne_five]

@[simp] theorem State.reg_setFlag_other (s : State) (f : Flag) (b : Bool) (r : Reg) (h : r ≠ .status) :
    (s.setFlag f b).reg r = s.reg r :=
  State.reg_setReg_other _ _ _ _ h

@[simp] theorem State.flag_setReg_other (s : State) (r : Reg) (v : Byte) (f : Flag) (h : r ≠ .status) :
    (s.setReg r v).flag f = s.flag f := by
  simp [State.flag, State.regBit, State.reg_setReg_other _ _ _ _ (Ne.symm h)]

/-- A whole write of the status register gives every flag its bit (R63). -/
@[simp] theorem State.flag_setReg_status (s : State) (v : Byte) (f : Flag) :
    (s.setReg .status v).flag f = v.getLsbD f.bit := by
  unfold State.flag State.regBit
  rw [State.reg_setReg_status, getLsbD_or_statusFixed]
  simp [f.bit_ne_five]

@[simp] theorem State.flag_setPc (s : State) (v : Addr) (f : Flag) : (s.setPc v).flag f = s.flag f := rfl

@[simp] theorem State.flag_writeByte (s : State) (p : Addr) (v : Byte) (f : Flag) :
    (s.writeByte p v).flag f = s.flag f := rfl

/-- Every write of the status register leaves bit 5 set (R26). -/
theorem State.bit5Set_setReg_status (s : State) (v : Byte) : (s.setReg .status v).bit5Set := by
  unfold State.bit5Set
  rw [State.reg_setReg_status, getLsbD_or_statusFixed]
  simp

theorem State.bit5Set_setReg (s : State) (r : Reg) (v : Byte) (h : s.bit5Set) : (s.setReg r v).bit5Set := by
  cases r <;> first | exact State.bit5Set_setReg_status s v | exact h

theorem State.bit5Set_setFlag (s : State) (f : Flag) (b : Bool) : (s.setFlag f b).bit5Set :=
  State.bit5Set_setReg_status s _

/-! Bytes. -/

@[simp] theorem State.readByte_setReg (s : State) (r : Reg) (v : Byte) (p : Addr) :
    (s.setReg r v).readByte p = s.readByte p := by
  cases r <;> rfl

@[simp] theorem State.readByte_setFlag (s : State) (f : Flag) (b : Bool) (p : Addr) :
    (s.setFlag f b).readByte p = s.readByte p := rfl

@[simp] theorem State.readByte_setPc (s : State) (v : Addr) (p : Addr) : (s.setPc v).readByte p = s.readByte p := rfl

/-- A byte write changes that byte and no other (R36). -/
@[simp] theorem State.readByte_writeByte (s : State) (p q : Addr) (v : Byte) :
    (s.writeByte p v).readByte q = if q = p then v else s.readByte q := by
  simp [State.readByte, Memory.read_write, BitVec.toNat_inj]

/-! The stack. -/

theorem stackAddr_injective {v w : Byte} (h : stackAddr v = stackAddr w) : v = w := by
  apply BitVec.eq_of_getLsbD_eq
  intro k hk
  have h8 : k < 8 := hk
  have hb : (stackAddr v).getLsbD k = (stackAddr w).getLsbD k := by rw [h]
  have hp : Config.stackPage.getLsbD k = false := by interval_cases k <;> decide
  rw [stackAddr, stackAddr, BitVec.getLsbD_or, BitVec.getLsbD_or, hp] at hb
  simpa [show k < 16 by omega] using hb

@[simp] theorem State.readByte_push (s : State) (v : Byte) (q : Addr) :
    (s.push v).readByte q = if q = stackAddr s.sp then v else s.readByte q := by
  unfold State.push
  simp [State.reg]

@[simp] theorem State.flag_push (s : State) (v : Byte) (f : Flag) : (s.push v).flag f = s.flag f := rfl

@[simp] theorem State.readByte_popped (s : State) (q : Addr) : s.popped.readByte q = s.readByte q := rfl

@[simp] theorem State.flag_popped (s : State) (f : Flag) : s.popped.flag f = s.flag f := rfl

theorem State.pulled_eq (s : State) : s.pulled = s.readByte (stackAddr (s.sp + 1#8)) := rfl

/-! Frames. -/

theorem Frame.refl (s : State) : Frame [] [] [] s s := by simp [Frame]

/-- A frame may name more than was written. -/
theorem Frame.mono {rs rs' : List Reg} {fs fs' : List Flag} {ps ps' : List Addr} {s t : State}
    (h : Frame rs fs ps s t) (hr : rs ⊆ rs') (hf : fs ⊆ fs') (hp : ps ⊆ ps') : Frame rs' fs' ps' s t :=
  ⟨fun r hs hn => h.1 r hs fun hm => hn (hr hm), fun f hn => h.2.1 f fun hm => hn (hf hm), h.2.2.1,
    fun p hn => h.2.2.2.1 p fun hm => hn (hp hm), h.2.2.2.2⟩

/-- What two operations in a row write is what either writes. -/
theorem Frame.trans {rs rs' : List Reg} {fs fs' : List Flag} {ps ps' : List Addr} {s t u : State}
    (h : Frame rs fs ps s t) (k : Frame rs' fs' ps' t u) : Frame (rs ++ rs') (fs ++ fs') (ps ++ ps') s u := by
  obtain ⟨h1, h2, h3, h4, h5, h6, h7⟩ := h
  obtain ⟨k1, k2, k3, k4, k5, k6, k7⟩ := k
  refine ⟨fun r hs hn => ?_, fun f hn => ?_, fun hb => k3 (h3 hb), fun p hn => ?_, k5.trans h5, k6.trans h6,
    k7.trans h7⟩
  · simp only [List.mem_append, not_or] at hn; exact (k1 r hs hn.2).trans (h1 r hs hn.1)
  · simp only [List.mem_append, not_or] at hn; exact (k2 f hn.2).trans (h2 f hn.1)
  · simp only [List.mem_append, not_or] at hn; exact (k4 p hn.2).trans (h4 p hn.1)

theorem Frame.setReg (s : State) (r : Reg) (v : Byte) (h : r ≠ .status) : Frame [r] [] [] s (s.setReg r v) :=
  ⟨fun q _ hn => State.reg_setReg_other s r q v (by simpa using hn), fun f _ => State.flag_setReg_other s r v f h,
    State.bit5Set_setReg s r v, fun p _ => State.readByte_setReg s r v p, by simp, by simp, by simp⟩

theorem Frame.setFlag (s : State) (f : Flag) (b : Bool) : Frame [] [f] [] s (s.setFlag f b) :=
  ⟨fun q hq _ => State.reg_setFlag_other s f b q hq, fun g hn => by simp at hn; simp [hn],
    fun _ => State.bit5Set_setFlag s f b, fun _ _ => rfl, rfl, rfl, rfl⟩

theorem Frame.setPc (s : State) (v : Addr) : Frame [] [] [] s (s.setPc v) :=
  ⟨fun q _ _ => State.reg_setPc s v q, fun _ _ => rfl, id, fun _ _ => rfl, rfl, rfl, rfl⟩

theorem Frame.writeByte (s : State) (p : Addr) (v : Byte) : Frame [] [] [p] s (s.writeByte p v) :=
  ⟨fun q _ _ => State.reg_writeByte s p v q, fun _ _ => rfl, id, fun q hn => by simp at hn; simp [hn], rfl, rfl, rfl⟩

theorem Frame.push (s : State) (v : Byte) : Frame [.sp] [] [stackAddr s.sp] s (s.push v) :=
  (Frame.writeByte s _ v).trans (Frame.setReg _ .sp _ (by decide))

theorem Frame.popped (s : State) : Frame [.sp] [] [] s s.popped := Frame.setReg s .sp _ (by decide)

theorem Frame.setSignZero (s : State) (v : Byte) : Frame [] [.sign, .zero] [] s (s.setSignZero v) :=
  (Frame.setFlag s .sign _).trans (Frame.setFlag _ .zero _)

@[simp] theorem State.setSignZero_pc (s : State) (v : Byte) : (s.setSignZero v).pc = s.pc := rfl
@[simp] theorem State.setSignZero_sp (s : State) (v : Byte) : (s.setSignZero v).sp = s.sp := rfl
@[simp] theorem State.setSignZero_a (s : State) (v : Byte) : (s.setSignZero v).a = s.a := rfl
@[simp] theorem State.setSignZero_x (s : State) (v : Byte) : (s.setSignZero v).x = s.x := rfl
@[simp] theorem State.setSignZero_y (s : State) (v : Byte) : (s.setSignZero v).y = s.y := rfl
@[simp] theorem State.setSignZero_mem (s : State) (v : Byte) : (s.setSignZero v).mem = s.mem := rfl
@[simp] theorem State.setSignZero_fault (s : State) (v : Byte) : (s.setSignZero v).fault = s.fault := rfl
@[simp] theorem State.setSignZero_inbox (s : State) (v : Byte) : (s.setSignZero v).inbox = s.inbox := rfl
@[simp] theorem State.setSignZero_portOut (s : State) (v : Byte) : (s.setSignZero v).portOut = s.portOut := rfl

@[simp] theorem State.flag_setSignZero (s : State) (v : Byte) (f : Flag) :
    (s.setSignZero v).flag f = if f = .zero then decide (v = 0#8) else if f = .sign then v.getLsbD 7 else s.flag f := by
  have hz : trunc8 (wide v) = v := by simp [trunc8, wide]
  simp [State.setSignZero, zeroOf, signOf, hz]
  simp [wide]

@[simp] theorem State.reg_setSignZero (s : State) (v : Byte) (r : Reg) (h : r ≠ .status) :
    (s.setSignZero v).reg r = s.reg r := by
  simp [State.setSignZero, h]

/-! The canonical form of memory over the state. -/

theorem State.wf_writeByte (s : State) (p : Addr) (v : Byte) (h : Memory.wf s.mem) :
    Memory.wf (s.writeByte p v).mem :=
  Memory.wf_write h p.isLt

theorem State.wf_push (s : State) (v : Byte) (h : Memory.wf s.mem) : Memory.wf (s.push v).mem :=
  Memory.wf_write h (stackAddr s.sp).isLt

end Sys2Proof.Machine
end

