-- ==== Sys2Proof/Laws/Handlers.lean ====
section
/-! SUPPORT. For each shape that several handlers share: its frame, its program counter, and the values it writes.
A proof about a handler cites these and does not unfold the shape. -/
namespace Sys2Proof.Machine

/-! Additions and subtractions (R76, R77). -/

theorem Frame.writeAlu (s : State) (r : Alu) : Frame [.a] [.zero, .sign, .overflow, .carry] [] s (s.writeAlu r) :=
  ((((Frame.setFlag s .zero _).trans (Frame.setFlag _ .sign _)).trans (Frame.setFlag _ .overflow _)).trans
    (Frame.setFlag _ .carry _)).trans (Frame.setReg _ .a _ (by decide))

@[simp] theorem State.writeAlu_pc (s : State) (r : Alu) : (s.writeAlu r).pc = s.pc := rfl
@[simp] theorem State.writeAlu_mem (s : State) (r : Alu) : (s.writeAlu r).mem = s.mem := rfl
@[simp] theorem State.writeAlu_a (s : State) (r : Alu) : (s.writeAlu r).reg .a = r.value := rfl

theorem State.bit5Set_writeAlu (s : State) (r : Alu) : (s.writeAlu r).bit5Set :=
  State.bit5Set_setReg _ .a _ (State.bit5Set_setFlag _ _ _)

/-- The four flags an addition or a subtraction writes, and the three it does not. -/
theorem State.flag_writeAlu (s : State) (r : Alu) (f : Flag) :
    (s.writeAlu r).flag f =
      match f with
      | .carry => r.carry
      | .zero => r.zero
      | .overflow => r.overflow
      | .sign => r.sign
      | .interruptDisable | .decimal | .breakFlag => s.flag f := by
  cases f <;> simp [State.writeAlu]

/-! Compares (R78 to R80). -/

theorem Frame.compare (s : State) (r : Reg) (ctx : Ctx) : Frame [] [.carry, .sign, .zero] [] s (s.compare r ctx) :=
  ((Frame.setFlag s .carry _).trans (Frame.setFlag _ .sign _)).trans (Frame.setFlag _ .zero _)

@[simp] theorem State.compare_pc (s : State) (r : Reg) (ctx : Ctx) : (s.compare r ctx).pc = s.pc := rfl
@[simp] theorem State.compare_mem (s : State) (r : Reg) (ctx : Ctx) : (s.compare r ctx).mem = s.mem := rfl

theorem State.flag_compare (s : State) (r : Reg) (ctx : Ctx) (f : Flag) :
    (s.compare r ctx).flag f =
      match f with
      | .carry => carryNoBorrow (wide (s.reg r) - wideAddr ctx.ea)
      | .sign => signOf (wide (s.reg r) - wideAddr ctx.ea)
      | .zero => zeroOf (wide (s.reg r) - wideAddr ctx.ea)
      | .interruptDisable | .decimal | .breakFlag | .overflow => s.flag f := by
  cases f <;> simp [State.compare, compareInput]

/-! Shifts (R82, R83). -/

/-- A shift writes A and no byte in Accumulator mode, and the byte at `ea` and no register in every other mode. -/
theorem Frame.finishShift (s : State) (ctx : Ctx) (out : Bool) (r : Byte) :
    Frame (if ctx.mode = .accumulator then [.a] else []) [.carry, .sign, .zero]
      (if ctx.mode = .accumulator then [] else [ctx.ea]) s (s.finishShift ctx out r) := by
  have h := (Frame.setFlag s .carry out).trans (Frame.setSignZero _ r)
  unfold State.finishShift State.writeShifted
  by_cases hm : ctx.mode = .accumulator
  · simpa [hm] using h.trans (Frame.setReg _ .a r (by decide))
  · simpa [hm, storeAddr] using h.trans (Frame.writeByte _ ctx.ea r)

@[simp] theorem State.finishShift_pc (s : State) (ctx : Ctx) (out : Bool) (r : Byte) :
    (s.finishShift ctx out r).pc = s.pc := by
  unfold State.finishShift State.writeShifted
  split <;> rfl

theorem State.flag_finishShift (s : State) (ctx : Ctx) (out : Bool) (r : Byte) (f : Flag) :
    (s.finishShift ctx out r).flag f =
      match f with
      | .carry => out
      | .sign => r.getLsbD 7
      | .zero => decide (r = 0#8)
      | .interruptDisable | .decimal | .breakFlag | .overflow => s.flag f := by
  unfold State.finishShift State.writeShifted
  split <;> cases f <;> simp

theorem State.finishShift_accumulator (s : State) (ctx : Ctx) (out : Bool) (r : Byte) (h : ctx.mode = .accumulator) :
    (s.finishShift ctx out r).reg .a = r := by
  simp [State.finishShift, State.writeShifted, h]

theorem State.finishShift_memory (s : State) (ctx : Ctx) (out : Bool) (r : Byte) (h : ctx.mode ≠ .accumulator) :
    (s.finishShift ctx out r).readByte ctx.ea = r := by
  simp [State.finishShift, State.writeShifted, h, storeAddr]

theorem State.bit5Set_finishShift (s : State) (ctx : Ctx) (out : Bool) (r : Byte) :
    (s.finishShift ctx out r).bit5Set := by
  unfold State.finishShift State.writeShifted
  split <;> exact State.bit5Set_setFlag _ .zero _

theorem State.wf_finishShift (s : State) (ctx : Ctx) (out : Bool) (r : Byte) (h : Memory.wf s.mem) :
    Memory.wf (s.finishShift ctx out r).mem := by
  unfold State.finishShift State.writeShifted
  split
  · exact h
  · exact State.wf_writeByte _ _ _ h

/-! Branches (R84). -/

theorem Frame.branchWhen (s : State) (f : Flag) (wanted : Bool) (ctx : Ctx) :
    Frame [] [] [] s (s.branchWhen f wanted ctx) := by
  unfold State.branchWhen
  split
  · exact Frame.setPc s _
  · exact Frame.refl s

theorem State.branchWhen_pc (s : State) (f : Flag) (wanted : Bool) (ctx : Ctx) :
    (s.branchWhen f wanted ctx).pc = if s.flag f = wanted then ctx.ea else s.pc := by
  unfold State.branchWhen
  split <;> rfl

@[simp] theorem State.branchWhen_mem (s : State) (f : Flag) (wanted : Bool) (ctx : Ctx) :
    (s.branchWhen f wanted ctx).mem = s.mem := by
  unfold State.branchWhen
  split <;> rfl

@[simp] theorem State.branchWhen_status (s : State) (f : Flag) (wanted : Bool) (ctx : Ctx) :
    (s.branchWhen f wanted ctx).status = s.status := by
  unfold State.branchWhen
  split <;> rfl

/-! Loads, AND and ORA (R97 to R99, R109, R110). -/

theorem Frame.load (s : State) (r : Reg) (ctx : Ctx) (h : r ≠ .status) :
    Frame [r] [.sign, .zero] [] s (s.load r ctx) :=
  (Frame.setReg s r _ h).trans (Frame.setSignZero _ _)

theorem Frame.combine (s : State) (r : Byte) : Frame [.a] [.sign, .zero] [] s (s.combine r) :=
  (Frame.setReg s .a r (by decide)).trans (Frame.setSignZero _ r)

@[simp] theorem State.load_pc (s : State) (r : Reg) (ctx : Ctx) : (s.load r ctx).pc = s.pc := by cases r <;> rfl
@[simp] theorem State.load_mem (s : State) (r : Reg) (ctx : Ctx) : (s.load r ctx).mem = s.mem := by cases r <;> rfl
@[simp] theorem State.combine_pc (s : State) (r : Byte) : (s.combine r).pc = s.pc := rfl
@[simp] theorem State.combine_mem (s : State) (r : Byte) : (s.combine r).mem = s.mem := rfl

theorem State.load_reg (s : State) (r : Reg) (ctx : Ctx) (h : r ≠ .status) : (s.load r ctx).reg r = ctx.operand := by
  simp [State.load, h, inputByte]

theorem State.flag_load (s : State) (r : Reg) (ctx : Ctx) (f : Flag) (h : r ≠ .status) :
    (s.load r ctx).flag f =
      if f = .zero then decide (ctx.operand = 0#8) else if f = .sign then ctx.operand.getLsbD 7 else s.flag f := by
  simp [State.load, h, inputByte]

theorem State.flag_combine (s : State) (r : Byte) (f : Flag) :
    (s.combine r).flag f = if f = .zero then decide (r = 0#8) else if f = .sign then r.getLsbD 7 else s.flag f := by
  simp [State.combine]

theorem State.bit5Set_setSignZero (s : State) (v : Byte) : (s.setSignZero v).bit5Set :=
  State.bit5Set_setFlag _ .zero _

/-! Pushing the program counter (R94, R115). -/

theorem Frame.pushPc (s : State) :
    Frame [.sp, .sp] [] [stackAddr s.sp, stackAddr (s.sp - 1#8)] s s.pushPc :=
  (Frame.push s _).trans (Frame.push _ _)

@[simp] theorem State.pushPc_pc (s : State) : s.pushPc.pc = s.pc := rfl
@[simp] theorem State.pushPc_status (s : State) : s.pushPc.status = s.status := rfl
@[simp] theorem State.pushPc_sp (s : State) : s.pushPc.sp = s.sp - 2#8 := by
  simp only [State.pushPc, State.push_sp]; bv_omega

theorem State.wf_pushPc (s : State) (h : Memory.wf s.mem) : Memory.wf s.pushPc.mem :=
  State.wf_push _ _ (State.wf_push _ _ h)

/-- The high byte of `pc` lands at the stack top and the low byte just below it (R40). -/
theorem State.readByte_pushPc (s : State) (q : Addr) :
    s.pushPc.readByte q =
      if q = stackAddr (s.sp - 1#8) then s.pc.extractLsb' 0 8
      else if q = stackAddr s.sp then s.pc.extractLsb' 8 8 else s.readByte q := by
  simp [State.pushPc]

end Sys2Proof.Machine
end

