-- ==== Sys2Proof/Laws/PerInstr.lean ====
section
/-! SUPPORT. One family of facts about instructions as syntax, one lemma per constructor: the control word of every
instruction passes the three checks of R54. -/
namespace Sys2Proof.Laws.EncodedWordLegal

/-- The control word of the instruction is one that EXECUTE accepts (R54). -/
def Statement (i : Instr) : Prop := (Fields.ofWord (encode i)).wellFormed = true

theorem wellFormed_of_fields (i : Instr) : Statement i := by
  obtain ⟨h1, h2⟩ := i.handlerCode_assigned
  simp [Statement, Fields.wellFormed, Fields.reservedClear, Fields.handlerAssigned, Fields.modeLegal, Instr.fields, h1,
    h2, Mode.code_legal]

theorem adc (ctx : Ctx) : Statement (.adc ctx) := wellFormed_of_fields _

theorem sbc (ctx : Ctx) : Statement (.sbc ctx) := wellFormed_of_fields _

theorem asl (ctx : Ctx) : Statement (.asl ctx) := wellFormed_of_fields _

theorem lsr (ctx : Ctx) : Statement (.lsr ctx) := wellFormed_of_fields _

theorem cmp (ctx : Ctx) : Statement (.cmp ctx) := wellFormed_of_fields _

theorem cpx (ctx : Ctx) : Statement (.cpx ctx) := wellFormed_of_fields _

theorem cpy (ctx : Ctx) : Statement (.cpy ctx) := wellFormed_of_fields _

theorem bcc (ctx : Ctx) : Statement (.bcc ctx) := wellFormed_of_fields _

theorem bcs (ctx : Ctx) : Statement (.bcs ctx) := wellFormed_of_fields _

theorem beq (ctx : Ctx) : Statement (.beq ctx) := wellFormed_of_fields _

theorem bmi (ctx : Ctx) : Statement (.bmi ctx) := wellFormed_of_fields _

theorem bne (ctx : Ctx) : Statement (.bne ctx) := wellFormed_of_fields _

theorem bpl (ctx : Ctx) : Statement (.bpl ctx) := wellFormed_of_fields _

theorem bvc (ctx : Ctx) : Statement (.bvc ctx) := wellFormed_of_fields _

theorem bvs (ctx : Ctx) : Statement (.bvs ctx) := wellFormed_of_fields _

theorem jmp (ctx : Ctx) : Statement (.jmp ctx) := wellFormed_of_fields _

theorem jsr (ctx : Ctx) : Statement (.jsr ctx) := wellFormed_of_fields _

theorem lda (ctx : Ctx) : Statement (.lda ctx) := wellFormed_of_fields _

theorem ldx (ctx : Ctx) : Statement (.ldx ctx) := wellFormed_of_fields _

theorem ldy (ctx : Ctx) : Statement (.ldy ctx) := wellFormed_of_fields _

theorem sta (ctx : Ctx) : Statement (.sta ctx) := wellFormed_of_fields _

theorem stx (ctx : Ctx) : Statement (.stx ctx) := wellFormed_of_fields _

theorem clc (ctx : Ctx) : Statement (.clc ctx) := wellFormed_of_fields _

theorem cld (ctx : Ctx) : Statement (.cld ctx) := wellFormed_of_fields _

theorem cli (ctx : Ctx) : Statement (.cli ctx) := wellFormed_of_fields _

theorem clv (ctx : Ctx) : Statement (.clv ctx) := wellFormed_of_fields _

theorem sec (ctx : Ctx) : Statement (.sec ctx) := wellFormed_of_fields _

theorem tay (ctx : Ctx) : Statement (.tay ctx) := wellFormed_of_fields _

theorem tya (ctx : Ctx) : Statement (.tya ctx) := wellFormed_of_fields _

theorem and (ctx : Ctx) : Statement (.and ctx) := wellFormed_of_fields _

theorem ora (ctx : Ctx) : Statement (.ora ctx) := wellFormed_of_fields _

theorem bit (ctx : Ctx) : Statement (.bit ctx) := wellFormed_of_fields _

theorem nop (ctx : Ctx) : Statement (.nop ctx) := wellFormed_of_fields _

theorem brk (ctx : Ctx) : Statement (.brk ctx) := wellFormed_of_fields _

theorem pla (ctx : Ctx) : Statement (.pla ctx) := wellFormed_of_fields _

theorem plp (ctx : Ctx) : Statement (.plp ctx) := wellFormed_of_fields _

end Sys2Proof.Laws.EncodedWordLegal
end

