-- ==== Sys2Proof/Laws/Step.lean ====
section
/-! SUPPORT. What a step can be: stopped, idle, or one thing served; and the accessors' shared outcome. -/
namespace Sys2Proof.Machine

/-- A block that has not halted serves the oldest thing presented. -/
theorem step_presented {s : State} {e : Event} {rest : List Event} (h : s.fault = none) (hi : s.inbox = e :: rest) :
    step s = serve e { s with inbox := rest } := by
  simp [step, h, hi]

theorem step_nothing_presented {s : State} (h : s.fault = none) (hi : s.inbox = []) : step s = idle s := by
  simp [step, h, hi]

theorem step_faulted {s : State} {code : FaultCode} (h : s.fault = some code) : step s = halted code s := by
  simp [step, h]

/-- A halted block answers no next state (R119). -/
theorem halted_ne_next (code : FaultCode) (s t : State) : halted code s ≠ .next t := by
  unfold halted
  split <;> simp

/-- A next state comes from an idle step or from serving one thing, and only of a block that has not halted. -/
theorem step_next_cases {s t : State} (h : step s = .next t) :
    s.fault = none ∧ ((s.inbox = [] ∧ t = s) ∨
      ∃ e rest, s.inbox = e :: rest ∧ serve e { s with inbox := rest } = .next t) := by
  unfold step at h
  split at h
  · exact absurd h (halted_ne_next _ _ _)
  · rename_i hf
    refine ⟨hf, ?_⟩
    split at h
    · rename_i hi; exact .inl ⟨hi, by simpa [idle] using h.symm⟩
    · rename_i e rest hi; exact .inr ⟨e, rest, hi, h⟩

/-- What an accessor call can do: raise one fault, or write one register, or return one value. -/
theorem State.access_cases (s : State) (call : Accessor) :
    (∃ code, s.access call = s.raiseFault code) ∨ (∃ r v, s.access call = s.setReg r v) ∨
      ∃ v, s.access call = s.returnValue v := by
  cases call with
  | setRegBit r i v =>
    simp only [State.access, accessSetRegBit]
    split
    · exact .inl ⟨_, rfl⟩
    · split_ifs <;> first | exact .inl ⟨_, rfl⟩ | exact .inr (.inl ⟨_, _, rfl⟩)
  | getRegBit r i =>
    simp only [State.access, accessGetRegBit]
    split
    · exact .inl ⟨_, rfl⟩
    · split_ifs <;> first | exact .inl ⟨_, rfl⟩ | exact .inr (.inr ⟨_, rfl⟩)
  | setFlag f v =>
    simp only [State.access, accessSetFlag]
    split_ifs <;> first | exact .inl ⟨_, rfl⟩ | exact .inr (.inl ⟨_, _, rfl⟩)
  | getFlag f =>
    simp only [State.access, accessGetFlag]
    split_ifs <;> first | exact .inl ⟨_, rfl⟩ | exact .inr (.inr ⟨_, rfl⟩)
  | setRegByte r b =>
    simp only [State.access, accessSetRegByte]
    split
    · exact .inl ⟨_, rfl⟩
    · exact .inr (.inl ⟨_, _, rfl⟩)
  | getRegByte r =>
    simp only [State.access, accessGetRegByte]
    split
    · exact .inl ⟨_, rfl⟩
    · exact .inr (.inr ⟨_, rfl⟩)

end Sys2Proof.Machine
end

