-- ==== Sys2Proof/Tests/Slice0.lean ====
section
/-! SUPPORT. The model's own tests. Expected values come from the spec: the control words are written out from
30_encoding.md R48, R50 and R51, and the one-step vectors are those of 95_test_vectors.md under their own ids (a vector
V-ADC-8 is `test_adc_8`). Then one witness for every statement of Obligations.lean that has hypotheses. -/
namespace Sys2Proof.Tests

open Sys2Proof Sys2Proof.Machine Sys2Proof.Claims

/-! Helpers. -/

/-- A state with the given registers and memory, not halted, with nothing presented. -/
def before (pc : Addr) (p sp a x y : Byte) (mem : Memory) : State :=
  { State.reset with pc := pc, status := p, sp := sp, a := a, x := x, y := y, mem := mem }

/-- Present one event to a state and take one step. -/
def stepOn (e : Event) (s : State) : Result := step { s with inbox := [e] }

/-- The state a result answers is the expected one. -/
def answers (o : Result) (t : State) : Bool :=
  match o with
  | .next u => decide (u = t)
  | .fault _ => false
  | .refused _ => false

/-- One step with EXECUTE of a control word presented leads from the first state to the second. -/
def leads (cw : CtrlWord) (s t : State) : Bool := answers (stepOn (.operation (.execute cw)) s) t

/-- One step with an accessor call presented leads from the first state to the second. -/
def calls (call : Accessor) (s t : State) : Bool := answers (stepOn (.operation (.access call)) s) t

/-- What the decoder answers. -/
def decodesTo (cw : CtrlWord) (i : Instr) : Bool :=
  match decode cw with
  | .ok j => decide (j = i)
  | .error _ => false

/-- The decoder rejects a word with this fault. -/
def rejects (cw : CtrlWord) (code : FaultCode) : Bool :=
  match decode cw with
  | .ok _ => false
  | .error c => decide (c = code)

/-! Well-formedness smoke tests: an ill-formed input for each check. -/

theorem test_wf_reserved_field : (Fields.mk 0x01#8 2#4 1#4 0x01#8 0x0000#16).wellFormed = false := by decide
theorem test_wf_handler_zero : (Fields.mk 0x00#8 0#4 0#4 0x00#8 0x0000#16).wellFormed = false := by decide
theorem test_wf_handler_above : (Fields.mk 0x25#8 0#4 0#4 0x00#8 0x0000#16).wellFormed = false := by decide
theorem test_wf_mode : (Fields.mk 0x01#8 13#4 0#4 0x00#8 0x0000#16).wellFormed = false := by decide
theorem test_wf_legal_word : (Fields.mk 0x24#8 12#4 0#4 0xFF#8 0xFFFF#16).wellFormed = true := by decide

/-- V-RF-4, V-RF-5, V-RF-7, V-RF-8. -/
theorem test_wf_setRegBit :
    (Accessor.setRegBit 5 0 1).wellFormed = false ∧ (Accessor.setRegBit 2 8 1).wellFormed = false ∧
    (Accessor.setRegBit 0 5 0).wellFormed = false ∧ (Accessor.setRegBit 2 0 2).wellFormed = false ∧
    (Accessor.setRegBit 2 5 0).wellFormed = true := by decide

/-- V-RF-14 and R57. -/
theorem test_wf_getRegBit :
    (Accessor.getRegBit 5 0).wellFormed = false ∧ (Accessor.getRegBit 3 8).wellFormed = false ∧
    (Accessor.getRegBit 0 5).wellFormed = true := by decide

/-- V-RF-16 to V-RF-20. -/
theorem test_wf_flags :
    (Accessor.setFlag 8 0).wellFormed = false ∧ (Accessor.setFlag 5 1).wellFormed = false ∧
    (Accessor.setFlag 0 3).wellFormed = false ∧ (Accessor.getFlag 8).wellFormed = false ∧
    (Accessor.getFlag 5).wellFormed = false ∧ (Accessor.getFlag 1).wellFormed = true := by decide

/-- V-RF-24, V-RF-26. -/
theorem test_wf_bytes :
    (Accessor.setRegByte 5 0).wellFormed = false ∧ (Accessor.getRegByte 7).wellFormed = false ∧
    (Accessor.getRegByte 4).wellFormed = true := by decide

/-! Decoding: for every constructor a word written out from R48, R50 and R51. -/

theorem test_decode_arithmetic :
    decodesTo 0x01CF000000#40 (.adc ⟨0, 0, .indirectIndexed⟩) = false ∧
    decodesTo 0x01C0010000#40 (.adc ⟨0x01, 0x0000, .indirectIndexed⟩) = true ∧
    decodesTo 0x02200580FF#40 (.sbc ⟨0x05, 0x80FF, .immediate⟩) = true ∧
    decodesTo 0x0520990010#40 (.cmp ⟨0x99, 0x0010, .immediate⟩) = true ∧
    decodesTo 0x0670000105#40 (.cpx ⟨0x00, 0x0105, .absolute⟩) = true ∧
    decodesTo 0x073000FFFF#40 (.cpy ⟨0x00, 0xFFFF, .zeroPage⟩) = true := by decide

theorem test_decode_shifts :
    decodesTo 0x0310810000#40 (.asl ⟨0x81, 0x0000, .accumulator⟩) = true ∧
    decodesTo 0x0440FF1234#40 (.lsr ⟨0xFF, 0x1234, .zeroPageX⟩) = true := by decide

theorem test_decode_control :
    decodesTo 0x0860100612#40 (.bcc ⟨0x10, 0x0612, .relative⟩) = true ∧
    decodesTo 0x0960100612#40 (.bcs ⟨0x10, 0x0612, .relative⟩) = true ∧
    decodesTo 0x0A60100612#40 (.beq ⟨0x10, 0x0612, .relative⟩) = true ∧
    decodesTo 0x0B60100612#40 (.bmi ⟨0x10, 0x0612, .relative⟩) = true ∧
    decodesTo 0x0C60F00208#40 (.bne ⟨0xF0, 0x0208, .relative⟩) = true ∧
    decodesTo 0x0D60100612#40 (.bpl ⟨0x10, 0x0612, .relative⟩) = true ∧
    decodesTo 0x0E60100612#40 (.bvc ⟨0x10, 0x0612, .relative⟩) = true ∧
    decodesTo 0x0F60010618#40 (.bvs ⟨0x01, 0x0618, .relative⟩) = true ∧
    decodesTo 0x10A0000001#40 (.jmp ⟨0x00, 0x0001, .indirect⟩) = true ∧
    decodesTo 0x1170401240#40 (.jsr ⟨0x40, 0x1240, .absolute⟩) = true := by decide

theorem test_decode_load_store :
    decodesTo 0x12B0800000#40 (.lda ⟨0x80, 0x0000, .indexedIndirect⟩) = true ∧
    decodesTo 0x13507F0010#40 (.ldx ⟨0x7F, 0x0010, .zeroPageY⟩) = true ∧
    decodesTo 0x1480FE2000#40 (.ldy ⟨0xFE, 0x2000, .absoluteX⟩) = true ∧
    decodesTo 0x15900001FF#40 (.sta ⟨0x00, 0x01FF, .absoluteY⟩) = true ∧
    decodesTo 0x1630000020#40 (.stx ⟨0x00, 0x0020, .zeroPage⟩) = true ∧
    decodesTo 0x1C00000000#40 (.tay ⟨0x00, 0x0000, .implied⟩) = true ∧
    decodesTo 0x1D00000000#40 (.tya ⟨0x00, 0x0000, .implied⟩) = true := by decide

theorem test_decode_flag_ops :
    decodesTo 0x1700000000#40 (.clc ⟨0x00, 0x0000, .implied⟩) = true ∧
    decodesTo 0x1800000000#40 (.cld ⟨0x00, 0x0000, .implied⟩) = true ∧
    decodesTo 0x1900000000#40 (.cli ⟨0x00, 0x0000, .implied⟩) = true ∧
    decodesTo 0x1A00000000#40 (.clv ⟨0x00, 0x0000, .implied⟩) = true ∧
    decodesTo 0x1B20001234#40 (.sec ⟨0x00, 0x1234, .immediate⟩) = true := by decide

theorem test_decode_logical :
    decodesTo 0x1E200F0000#40 (.and ⟨0x0F, 0x0000, .immediate⟩) = true ∧
    decodesTo 0x1F20800000#40 (.ora ⟨0x80, 0x0000, .immediate⟩) = true ∧
    decodesTo 0x2030C00040#40 (.bit ⟨0xC0, 0x0040, .zeroPage⟩) = true := by decide

theorem test_decode_system_stack :
    decodesTo 0x2100000000#40 (.nop ⟨0x00, 0x0000, .implied⟩) = true ∧
    decodesTo 0x2200000000#40 (.brk ⟨0x00, 0x0000, .implied⟩) = true ∧
    decodesTo 0x2300000000#40 (.pla ⟨0x00, 0x0000, .implied⟩) = true ∧
    decodesTo 0x2400000000#40 (.plp ⟨0x00, 0x0000, .implied⟩) = true := by decide

/-- V-EXC-1 to V-EXC-6. -/
theorem test_decode_rejects :
    rejects 0x0121010000#40 .reservedField = true ∧ rejects 0x0000000000#40 .unknownHandler = true ∧
    rejects 0x2500000000#40 .unknownHandler = true ∧ rejects 0x01D0010000#40 .illegalMode = true ∧
    rejects 0xFFFF000000#40 .reservedField = true ∧ rejects 0x30E0000000#40 .unknownHandler = true := by decide

/-- The opcode table's numbering: the row's match word as it stands; a word with a bit above bit 39 is none. -/
theorem test_table_word :
    decodeTableWord 40 0x2200000000 = some (.brk ⟨0x00, 0x0000, .implied⟩) ∧
    decodeTableWord 40 0x0000000000 = none ∧ decodeTableWord 48 0x012200000000 = none := by decide

/-! One step per vector of 95_test_vectors.md. -/

theorem test_adc_8 :
    leads 0x0120460000#40 (before 0x0000 0x29 0x00 0x58 0x00 0x00 [])
      (before 0x0000 0xE9 0x00 0x05 0x00 0x00 []) = true := by
  decide

theorem test_adc_11 :
    leads 0x0120990000#40 (before 0x0000 0x29 0x00 0x99 0x00 0x00 [])
      (before 0x0000 0x69 0x00 0x99 0x00 0x00 []) = true := by
  decide

theorem test_sbc_2 :
    leads 0x0220010000#40 (before 0x0000 0x21 0x00 0x00 0x00 0x00 [])
      (before 0x0000 0xA0 0x00 0xFE 0x00 0x00 []) = true := by
  decide

theorem test_sbc_9 :
    leads 0x0220000000#40 (before 0x0000 0x29 0x00 0x00 0x00 0x00 [])
      (before 0x0000 0xA8 0x00 0x99 0x00 0x00 []) = true := by
  decide

theorem test_cmp_1 :
    leads 0x0520990010#40 (before 0x0000 0x20 0x00 0x10 0x00 0x00 [])
      (before 0x0000 0x23 0x00 0x10 0x00 0x00 []) = true := by
  decide

theorem test_cmp_3 :
    leads 0x0570100110#40 (before 0x0000 0x20 0x00 0x10 0x00 0x00 [])
      (before 0x0000 0x22 0x00 0x10 0x00 0x00 []) = true := by
  decide

theorem test_cpx_1 :
    leads 0x0620000003#40 (before 0x0000 0x20 0x00 0x00 0x05 0x00 [])
      (before 0x0000 0x21 0x00 0x00 0x05 0x00 []) = true := by
  decide

theorem test_cpx_2 :
    leads 0x0670000105#40 (before 0x0000 0x20 0x00 0x00 0x05 0x00 [])
      (before 0x0000 0x22 0x00 0x00 0x05 0x00 []) = true := by
  decide

theorem test_cpy_1 :
    leads 0x077000FFFF#40 (before 0x0000 0x20 0x00 0x00 0x00 0x00 [])
      (before 0x0000 0x20 0x00 0x00 0x00 0x00 []) = true := by
  decide

theorem test_cpy_2 :
    leads 0x07300000FF#40 (before 0x0000 0x20 0x00 0x00 0x00 0xFF [])
      (before 0x0000 0x23 0x00 0x00 0x00 0xFF []) = true := by
  decide

theorem test_asl_2 :
    leads 0x0330400010#40 (before 0x0000 0x20 0x00 0x33 0x00 0x00 [])
      (before 0x0000 0xA0 0x00 0x33 0x00 0x00 [(0x0010, 0x80#8)]) = true := by
  decide

theorem test_asl_4 :
    leads 0x0310010000#40 (before 0x0000 0x20 0x00 0x55 0x00 0x00 [])
      (before 0x0000 0x20 0x00 0x02 0x00 0x00 []) = true := by
  decide

theorem test_lsr_1 :
    leads 0x0470FF1234#40 (before 0x0000 0x20 0x00 0x00 0x00 0x00 [])
      (before 0x0000 0x21 0x00 0x00 0x00 0x00 [(0x1234, 0x7F#8)]) = true := by
  decide

theorem test_lsr_2 :
    leads 0x0410010000#40 (before 0x0000 0x20 0x00 0x01 0x00 0x00 [])
      (before 0x0000 0x23 0x00 0x00 0x00 0x00 []) = true := by
  decide

theorem test_bcc_t :
    leads 0x0860100612#40 (before 0x0602 0x20 0x00 0x00 0x00 0x00 [])
      (before 0x0612 0x20 0x00 0x00 0x00 0x00 []) = true := by
  decide

theorem test_bcc_n :
    leads 0x0860100612#40 (before 0x0602 0x21 0x00 0x00 0x00 0x00 [])
      (before 0x0602 0x21 0x00 0x00 0x00 0x00 []) = true := by
  decide

theorem test_bcs_t :
    leads 0x0960100612#40 (before 0x0602 0x21 0x00 0x00 0x00 0x00 [])
      (before 0x0612 0x21 0x00 0x00 0x00 0x00 []) = true := by
  decide

theorem test_bcs_n :
    leads 0x0960100612#40 (before 0x0602 0x20 0x00 0x00 0x00 0x00 [])
      (before 0x0602 0x20 0x00 0x00 0x00 0x00 []) = true := by
  decide

theorem test_beq_t :
    leads 0x0A60100612#40 (before 0x0602 0x22 0x00 0x00 0x00 0x00 [])
      (before 0x0612 0x22 0x00 0x00 0x00 0x00 []) = true := by
  decide

theorem test_beq_n :
    leads 0x0A60100612#40 (before 0x0602 0x20 0x00 0x00 0x00 0x00 [])
      (before 0x0602 0x20 0x00 0x00 0x00 0x00 []) = true := by
  decide

theorem test_bmi_t :
    leads 0x0B60100612#40 (before 0x0602 0xA0 0x00 0x00 0x00 0x00 [])
      (before 0x0612 0xA0 0x00 0x00 0x00 0x00 []) = true := by
  decide

theorem test_bmi_n :
    leads 0x0B60100612#40 (before 0x0602 0x20 0x00 0x00 0x00 0x00 [])
      (before 0x0602 0x20 0x00 0x00 0x00 0x00 []) = true := by
  decide

theorem test_bne_t :
    leads 0x0C60100612#40 (before 0x0602 0x20 0x00 0x00 0x00 0x00 [])
      (before 0x0612 0x20 0x00 0x00 0x00 0x00 []) = true := by
  decide

theorem test_bne_n :
    leads 0x0C60100612#40 (before 0x0602 0x22 0x00 0x00 0x00 0x00 [])
      (before 0x0602 0x22 0x00 0x00 0x00 0x00 []) = true := by
  decide

theorem test_bpl_t :
    leads 0x0D60100612#40 (before 0x0602 0x20 0x00 0x00 0x00 0x00 [])
      (before 0x0612 0x20 0x00 0x00 0x00 0x00 []) = true := by
  decide

theorem test_bpl_n :
    leads 0x0D60100612#40 (before 0x0602 0xA0 0x00 0x00 0x00 0x00 [])
      (before 0x0602 0xA0 0x00 0x00 0x00 0x00 []) = true := by
  decide

theorem test_bvc_t :
    leads 0x0E60100612#40 (before 0x0602 0x20 0x00 0x00 0x00 0x00 [])
      (before 0x0612 0x20 0x00 0x00 0x00 0x00 []) = true := by
  decide

theorem test_bvc_n :
    leads 0x0E60100612#40 (before 0x0602 0x60 0x00 0x00 0x00 0x00 [])
      (before 0x0602 0x60 0x00 0x00 0x00 0x00 []) = true := by
  decide

theorem test_bvs_t :
    leads 0x0F60100612#40 (before 0x0602 0x60 0x00 0x00 0x00 0x00 [])
      (before 0x0612 0x60 0x00 0x00 0x00 0x00 []) = true := by
  decide

theorem test_bvs_n :
    leads 0x0F60100612#40 (before 0x0602 0x20 0x00 0x00 0x00 0x00 [])
      (before 0x0602 0x20 0x00 0x00 0x00 0x00 []) = true := by
  decide

theorem test_jmp_2 :
    leads 0x10A0000000#40 (before 0xFFFF 0x20 0x00 0x00 0x00 0x00 [])
      (before 0x0000 0x20 0x00 0x00 0x00 0x00 []) = true := by
  decide

theorem test_jsr_1 :
    leads 0x1170401240#40 (before 0x0603 0x20 0xFF 0x00 0x00 0x00 [])
      (before 0x0040 0x20 0xFD 0x00 0x00 0x00 [(0x01FE, 0x02#8), (0x01FF, 0x06#8)]) = true := by
  decide

theorem test_jsr_2 :
    leads 0x1170FF0000#40 (before 0x0000 0x20 0x00 0x00 0x00 0x00 [])
      (before 0x00FF 0x20 0xFE 0x00 0x00 0x00 [(0x0100, 0xFF#8), (0x01FF, 0xFF#8)]) = true := by
  decide

theorem test_lda_1 :
    leads 0x1220000000#40 (before 0x0000 0x20 0x00 0x55 0x00 0x00 [])
      (before 0x0000 0x22 0x00 0x00 0x00 0x00 []) = true := by
  decide

theorem test_lda_2 :
    leads 0x1220800000#40 (before 0x0000 0x20 0x00 0x00 0x00 0x00 [])
      (before 0x0000 0xA0 0x00 0x80 0x00 0x00 []) = true := by
  decide

theorem test_ldx_1 :
    leads 0x13307F0010#40 (before 0x0000 0xA3 0x00 0x00 0x00 0x00 [])
      (before 0x0000 0x21 0x00 0x00 0x7F 0x00 []) = true := by
  decide

theorem test_ldy_1 :
    leads 0x1470FE2000#40 (before 0x0000 0x20 0x00 0x00 0x00 0x00 [])
      (before 0x0000 0xA0 0x00 0x00 0x00 0xFE []) = true := by
  decide

theorem test_sta_1 :
    leads 0x15700001FF#40 (before 0x0000 0xA3 0x00 0xAB 0x00 0x00 [])
      (before 0x0000 0xA3 0x00 0xAB 0x00 0x00 [(0x01FF, 0xAB#8)]) = true := by
  decide

theorem test_stx_1 :
    leads 0x1630000000#40 (before 0x0000 0x20 0x00 0x00 0x00 0x00 [(0x0000, 0x12#8)])
      (before 0x0000 0x20 0x00 0x00 0x00 0x00 []) = true := by
  decide

theorem test_tay_1 :
    leads 0x1C00000000#40 (before 0x0000 0x20 0x00 0x00 0x00 0x44 [])
      (before 0x0000 0x20 0x00 0x00 0x00 0x00 []) = true := by
  decide

theorem test_tya_1 :
    leads 0x1D00000000#40 (before 0x0000 0x20 0x00 0x11 0x00 0x80 [])
      (before 0x0000 0x20 0x00 0x80 0x00 0x80 []) = true := by
  decide

theorem test_clc_1 :
    leads 0x1700000000#40 (before 0x0000 0xFF 0x00 0x00 0x00 0x00 [])
      (before 0x0000 0xFE 0x00 0x00 0x00 0x00 []) = true := by
  decide

theorem test_cld_1 :
    leads 0x1800000000#40 (before 0x0000 0xFF 0x00 0x00 0x00 0x00 [])
      (before 0x0000 0xF7 0x00 0x00 0x00 0x00 []) = true := by
  decide

theorem test_cli_1 :
    leads 0x1900000000#40 (before 0x0000 0xFF 0x00 0x00 0x00 0x00 [])
      (before 0x0000 0xFB 0x00 0x00 0x00 0x00 []) = true := by
  decide

theorem test_clv_1 :
    leads 0x1A00000000#40 (before 0x0000 0xFF 0x00 0x00 0x00 0x00 [])
      (before 0x0000 0xBF 0x00 0x00 0x00 0x00 []) = true := by
  decide

theorem test_sec_1 :
    leads 0x1B00000000#40 (before 0x0000 0x20 0x00 0x00 0x00 0x00 [])
      (before 0x0000 0x21 0x00 0x00 0x00 0x00 []) = true := by
  decide

theorem test_and_1 :
    leads 0x1E200F0000#40 (before 0x0000 0x20 0x00 0xF0 0x00 0x00 [])
      (before 0x0000 0x22 0x00 0x00 0x00 0x00 []) = true := by
  decide

theorem test_and_2 :
    leads 0x1E20900000#40 (before 0x0000 0x20 0x00 0xF0 0x00 0x00 [])
      (before 0x0000 0xA0 0x00 0x90 0x00 0x00 []) = true := by
  decide

theorem test_ora_1 :
    leads 0x1F20800000#40 (before 0x0000 0x20 0x00 0x01 0x00 0x00 [])
      (before 0x0000 0xA0 0x00 0x81 0x00 0x00 []) = true := by
  decide

theorem test_ora_2 :
    leads 0x1F20000000#40 (before 0x0000 0x20 0x00 0x00 0x00 0x00 [])
      (before 0x0000 0x22 0x00 0x00 0x00 0x00 []) = true := by
  decide

theorem test_bit_1 :
    leads 0x2030C00040#40 (before 0x0000 0x20 0x00 0x01 0x00 0x00 [])
      (before 0x0000 0xE2 0x00 0x01 0x00 0x00 []) = true := by
  decide

theorem test_bit_3 :
    leads 0x20303F0040#40 (before 0x0000 0xE0 0x00 0x01 0x00 0x00 [])
      (before 0x0000 0x20 0x00 0x01 0x00 0x00 []) = true := by
  decide

theorem test_nop_1 :
    leads 0x2100000000#40 (before 0x1234 0xE3 0x80 0x01 0x02 0x03 [])
      (before 0x1234 0xE3 0x80 0x01 0x02 0x03 []) = true := by
  decide

theorem test_brk_1 :
    leads 0x2200000000#40 (before 0x0601 0x21 0xFF 0x00 0x00 0x00 [])
      (before 0x0602 0x39 0xFC 0x00 0x00 0x00 [(0x01FD, 0x21#8), (0x01FE, 0x02#8), (0x01FF, 0x06#8)]) = true := by
  decide

theorem test_brk_2 :
    leads 0x2200000000#40 (before 0xFFFF 0x20 0x01 0x00 0x00 0x00 [])
      (before 0x0000 0x38 0xFE 0x00 0x00 0x00 [(0x01FF, 0x20#8)]) = true := by
  decide

theorem test_pla_1 :
    leads 0x2300000000#40 (before 0x0000 0x20 0xFD 0x00 0x00 0x00 [(0x01FE, 0x80#8)])
      (before 0x0000 0xA0 0xFE 0x80 0x00 0x00 [(0x01FE, 0x80#8)]) = true := by
  decide

theorem test_pla_2 :
    leads 0x2300000000#40 (before 0x0000 0x20 0xFF 0x12 0x00 0x00 [])
      (before 0x0000 0x22 0x00 0x00 0x00 0x00 []) = true := by
  decide

theorem test_plp_1 :
    leads 0x2400000000#40 (before 0x0000 0x20 0xFD 0x00 0x00 0x00 [(0x01FE, 0xDF#8)])
      (before 0x0000 0xFF 0xFE 0x00 0x00 0x00 [(0x01FE, 0xDF#8)]) = true := by
  decide

theorem test_plp_2 :
    leads 0x2400000000#40 (before 0x0000 0xFF 0xFD 0x00 0x00 0x00 [])
      (before 0x0000 0x20 0xFE 0x00 0x00 0x00 []) = true := by
  decide

/-! Accessors, faults, halting and RESET. -/

/-- V-RF-1, V-RF-2, V-RF-3. -/
theorem test_setRegBit :
    calls (.setRegBit 2 7 1) (before 0 0x20 0 0x00 0 0 []) (before 0 0x20 0 0x80 0 0 []) = true ∧
    calls (.setRegBit 2 7 0) (before 0 0x20 0 0xFF 0 0 []) (before 0 0x20 0 0x7F 0 0 []) = true ∧
    calls (.setRegBit 0 0 1) (before 0 0x20 0 0 0 0 []) (before 0 0x21 0 0 0 0 []) = true := by decide

/-- V-RF-9, V-RF-10, V-RF-11: the first failing check wins. -/
theorem test_accessor_check_order :
    calls (.setRegBit 9 9 9) State.reset { State.reset with fault := some .registerName } = true ∧
    calls (.setRegBit 0 5 2) State.reset { State.reset with fault := some .reservedBit } = true ∧
    calls (.setRegBit 2 9 2) State.reset { State.reset with fault := some .bitIndex } = true := by decide

/-- V-RF-12, V-RF-13, V-RF-14. -/
theorem test_getRegBit :
    calls (.getRegBit 0 5) State.reset { State.reset with portOut := some 1 } = true ∧
    calls (.getRegBit 0 0) (before 0 0x21 0 0 0 0 []) { before 0 0x21 0 0 0 0 [] with portOut := some 1 } = true ∧
    calls (.getRegBit 3 8) State.reset { State.reset with fault := some .bitIndex } = true := by decide

/-- V-RF-15 to V-RF-18. -/
theorem test_setFlag :
    calls (.setFlag 7 1) State.reset (before 0 0xA0 0 0 0 0 []) = true ∧
    calls (.setFlag 5 1) State.reset { State.reset with fault := some .reservedBit } = true ∧
    calls (.setFlag 8 0) State.reset { State.reset with fault := some .bitIndex } = true ∧
    calls (.setFlag 0 3) State.reset { State.reset with fault := some .bitValue } = true := by decide

/-- V-RF-19, V-RF-20. -/
theorem test_getFlag :
    calls (.getFlag 1) (before 0 0x22 0 0 0 0 []) { before 0 0x22 0 0 0 0 [] with portOut := some 1 } = true ∧
    calls (.getFlag 5) State.reset { State.reset with fault := some .reservedBit } = true := by decide

/-- V-RF-21 to V-RF-24. -/
theorem test_setRegByte :
    calls (.setRegByte 0 0x00) (before 0 0xFF 0 0 0 0 []) (before 0 0x20 0 0 0 0 []) = true ∧
    calls (.setRegByte 0 0xDF) State.reset (before 0 0xFF 0 0 0 0 []) = true ∧
    calls (.setRegByte 1 0xFF) State.reset (before 0 0x20 0xFF 0 0 0 []) = true ∧
    calls (.setRegByte 5 0x00) State.reset { State.reset with fault := some .registerName } = true := by decide

/-- V-RF-25, V-RF-26. -/
theorem test_getRegByte :
    calls (.getRegByte 0) State.reset { State.reset with portOut := some 0x20 } = true ∧
    calls (.getRegByte 7) State.reset { State.reset with fault := some .registerName } = true := by decide

/-- V-EXC-1: the state is unchanged but for the code. -/
theorem test_execute_fault :
    leads 0x0121010000#40 (before 0 0x20 0 1 0 0 [])
      { before 0 0x20 0 1 0 0 [] with fault := some .reservedField } = true := by decide

/-- V-EXC-7, V-EXC-8: a halted block takes neither EXECUTE nor RESET. -/
theorem test_halted_refuses :
    stepOn (.operation (.execute 0x2100000000#40)) { State.reset with fault := some .unknownHandler } =
      .refused (.halted .unknownHandler) ∧
    stepOn (.operation .reset) { State.reset with fault := some .unknownHandler } =
      .refused (.halted .unknownHandler) := ⟨rfl, rfl⟩

/-- V-EXC-9: any legal mode is accepted. -/
theorem test_any_legal_mode :
    leads 0x01C0010000#40 State.reset (before 0 0x20 0 1 0 0 []) = true := by decide

/-- V-RST-1. -/
theorem test_reset :
    answers (stepOn (.operation .reset) (before 0x1234 0xFF 0x12 0x34 0x56 0x78 [(0x0010, 0x05#8)])) State.reset =
      true := by decide

/-- R6: the environment writes `pc` and a byte, and memory keeps its order and lists no blank byte. -/
theorem test_environment :
    answers (stepOn (.writePc 0xC000) State.reset) (before 0xC000 0x20 0 0 0 0 []) = true ∧
    answers (stepOn (.writeMem 0x0010 7) (before 0 0x20 0 0 0 0 [(0x0005, 1#8), (0x0020, 2#8)]))
      (before 0 0x20 0 0 0 0 [(0x0005, 1#8), (0x0010, 7#8), (0x0020, 2#8)]) = true ∧
    answers (stepOn (.writeMem 0x0010 0) (before 0 0x20 0 0 0 0 [(0x0010, 7#8)])) State.reset = true := by decide

/-- R6, R94, R114: a program the environment presents runs from the state at creation (P2: JSR, then PLA). -/
theorem test_presented_program :
    answers (Host.Core.run core 3 { State.reset with inbox :=
      [.writePc 0x0305, .operation (.execute 0x1170400040#40), .operation (.execute 0x2300000000#40)] })
      (before 0x0040 0x20 0xFF 0x04 0 0 [(0x0100, 0x03#8), (0x01FF, 0x04#8)]) = true := by decide

/-! Witnesses: for each statement with hypotheses, a state and operands that meet them all; where clauses split a
range, one for each clause at its edge. -/

/-- The creation state with events presented. -/
def presented (es : List Event) : State := { State.reset with inbox := es }

/-- The creation state of a block that then halted with a code. -/
def haltedWith (code : FaultCode) (es : List Event) : State := { State.reset with fault := some code, inbox := es }

theorem witness_ResetCannotBeToldFromCreation :
    Presents { before 0x1234 0xFF 0x12 0x34 0x56 0x78 [(0x0010, 0x05#8)] with
      inbox := [.operation .reset, .operation (.access (.getRegByte 0))] }
      (.operation .reset) [.operation (.access (.getRegByte 0))] := ⟨rfl, rfl⟩

theorem witness_StepRunsTheDecodedInstruction :
    Presents (presented [.operation (.execute 0x2400000000#40)]) (.operation (.execute 0x2400000000#40)) [] ∧
    decode 0x2400000000#40 = .ok (.plp ⟨0x00, 0x0000, .implied⟩) := ⟨⟨rfl, rfl⟩, rfl⟩

theorem witness_PresentedTableWordRunsNext :
    State.reset.fault = none ∧ decodeTableWord 40 0x24C0FFFFFF = some (.plp ⟨0xFF, 0xFFFF, .indirectIndexed⟩) :=
  ⟨rfl, rfl⟩

theorem witness_IdleBlockKeepsItsState : State.reset.fault = none ∧ State.reset.inbox = [] := ⟨rfl, rfl⟩

theorem witness_EnvironmentWritesOnlyPcAndMemory :
    Presents (presented [.writePc 0xFFFF]) (.writePc 0xFFFF) [] ∧
    Presents (presented [.writeMem 0xFFFF 0xFF]) (.writeMem 0xFFFF 0xFF) [] := ⟨⟨rfl, rfl⟩, ⟨rfl, rfl⟩⟩

theorem witness_EncodeOfDecodeIsTheWord :
    decode 0x24C0FFFFFF#40 = .ok (.plp ⟨0xFF, 0xFFFF, .indirectIndexed⟩) := rfl

theorem witness_ControlWordsSelectTheirHandlers :
    (0x01, Instr.adc) ∈ handlerTable ∧ (0x24, Instr.plp) ∈ handlerTable ∧ (0, Mode.implied) ∈ modeTable ∧
    (12, Mode.indirectIndexed) ∈ modeTable := by simp [handlerTable, modeTable]

/-- The reserved field at 1 and 15; handler codes 0x00 and 0x25; mode code 13; the last legal word. -/
theorem witness_ControlWordChecksInOrder :
    (∀ cw : CtrlWord, Presents (presented [.operation (.execute cw)]) (.operation (.execute cw)) []) ∧
    (0x0121010000#40).toNat / 2 ^ 24 % 16 = 1 ∧ (0xFFFF000000#40).toNat / 2 ^ 24 % 16 = 15 ∧
    ((0x00F0FFFFFF#40).toNat / 2 ^ 24 % 16 = 0 ∧ (0x00F0FFFFFF#40).toNat / 2 ^ 32 = 0) ∧
    ((0x25F0FFFFFF#40).toNat / 2 ^ 24 % 16 = 0 ∧ (0x25F0FFFFFF#40).toNat / 2 ^ 32 = 0x25) ∧
    ((0x24D0FFFFFF#40).toNat / 2 ^ 24 % 16 = 0 ∧ (0x24D0FFFFFF#40).toNat / 2 ^ 32 = 0x24 ∧
      (0x24D0FFFFFF#40).toNat / 2 ^ 28 % 16 = 13) ∧
    ((0x24C0FFFFFF#40).toNat / 2 ^ 24 % 16 = 0 ∧ (0x24C0FFFFFF#40).toNat / 2 ^ 32 = 0x24 ∧
      (0x24C0FFFFFF#40).toNat / 2 ^ 28 % 16 = 12) :=
  ⟨fun _ => ⟨rfl, rfl⟩, by decide⟩

theorem witness_HaltedBlockMakesNoStep : (haltedWith .bitValue []).fault = some .bitValue := rfl

theorem witness_HaltedBlockStopsByName :
    ((haltedWith .bitValue []).fault = some .bitValue ∧ (haltedWith .bitValue []).inbox = []) ∧
    ((haltedWith .bitValue [.operation .reset]).fault = some .bitValue ∧
      (haltedWith .bitValue [.operation .reset]).inbox ≠ []) := by decide

theorem witness_FaultsArePrecise :
    ∃ t, step (presented [.operation (.execute 0x2500000000#40), .writePc 1]) = .next t ∧
      t.fault = some .unknownHandler := ⟨_, rfl, rfl⟩

/-- Every code, raised by the operation with the smallest offending argument. -/
theorem witness_FaultCodesHaveTheirCauses :
    ∀ k ∈ [(Operation.access (.getRegByte 5), FaultCode.registerName), (.access (.setFlag 8 0), .bitIndex),
           (.access (.getFlag 5), .reservedBit), (.access (.setRegBit 0 5 2), .reservedBit),
           (.access (.setRegBit 0 4 2), .bitValue), (.execute 0x0121010000#40, .reservedField),
           (.execute 0x2500000000#40, .unknownHandler), (.execute 0x01D0010000#40, .illegalMode)],
      Presents (presented [.operation k.1]) (.operation k.1) [] ∧
      ∃ t, step (presented [.operation k.1]) = .next t ∧ t.fault = some k.2 := by
  intro k hk
  simp only [List.mem_cons, List.not_mem_nil, or_false] at hk
  rcases hk with rfl | rfl | rfl | rfl | rfl | rfl | rfl | rfl <;> exact ⟨⟨rfl, rfl⟩, _, rfl, rfl⟩

theorem witness_EveryStepKeepsTheInvariant :
    State.Inv { before 0 0xFF 0xFF 1 0 0 [(0x0100, 0x80#8)] with inbox := [.operation (.execute 0x2400000000#40)] } ∧
    ∃ t, step { before 0 0xFF 0xFF 1 0 0 [(0x0100, 0x80#8)] with
      inbox := [.operation (.execute 0x2400000000#40)] } = .next t := ⟨by decide, _, rfl⟩

/-- A run of each clause: a handler, an accessor call, a rejected word, RESET. -/
theorem witness_PcWrittenOnlyByControlTransfers :
    (∃ t, exec (.brk ⟨0, 0, .implied⟩) (before 0xFFFF 0x20 0 0 0 0 []) = .next t) ∧
    (Presents (presented [.operation (.access (.getFlag 0))]) (.operation (.access (.getFlag 0))) [] ∧
      ∃ t, step (presented [.operation (.access (.getFlag 0))]) = .next t) ∧
    (Presents (presented [.operation (.execute 0)]) (.operation (.execute 0)) [] ∧
      decode 0 = .error .unknownHandler ∧ ∃ t, step (presented [.operation (.execute 0)]) = .next t) ∧
    (Presents (presented [.operation .reset]) (.operation .reset) [] ∧
      ∃ t, step (presented [.operation .reset]) = .next t) :=
  ⟨⟨_, rfl⟩, ⟨⟨rfl, rfl⟩, _, rfl⟩, ⟨⟨rfl, rfl⟩, rfl, _, rfl⟩, ⟨rfl, rfl⟩, _, rfl⟩

theorem witness_RegistersWrittenOnlyByTheirWriters :
    ∃ t, exec (.asl ⟨1, 0x0010, .zeroPage⟩) State.reset = .next t := ⟨_, rfl⟩

theorem witness_FlagsWrittenOnlyByTheirWriters :
    ∃ t, exec (.tay ⟨0, 0, .implied⟩) State.reset = .next t := ⟨_, rfl⟩

/-- A memory form, an accumulator form, and a byte next to the stored one. -/
theorem witness_MemoryWrittenOnlyAtTheListedAddresses :
    (∃ t, exec (.sta ⟨0, 0xFFFF, .absolute⟩) State.reset = .next t) ∧ (0x0000#16 ≠ storeAddr ⟨0, 0xFFFF, .absolute⟩) ∧
    (∃ t, exec (.lsr ⟨1, 0, .accumulator⟩) State.reset = .next t) ∧
    (∃ t, exec (.jsr ⟨1, 0, .absolute⟩) State.reset = .next t) ∧
    (0x0101#16 ∉ [stackAddr (State.reset.reg .sp), stackAddr (State.reset.reg .sp - 1#8)]) ∧
    (∃ t, exec (.brk ⟨1, 0, .absolute⟩) State.reset = .next t) ∧
    (0x01FD#16 ∉ [stackAddr (State.reset.reg .sp), stackAddr (State.reset.reg .sp - 1#8),
      stackAddr (State.reset.reg .sp - 2#8)]) :=
  ⟨⟨_, rfl⟩, by decide, ⟨_, rfl⟩, ⟨_, rfl⟩, by decide, ⟨_, rfl⟩, by decide⟩

theorem witness_HandlersIgnoreUnnamedContextFields :
    (Ctx.mk 1 0x0010 .zeroPage).mode ≠ .accumulator ∧ Mode.implied ≠ .accumulator ∧
    (Ctx.mk 1 0 .accumulator).mode = .accumulator := by decide

theorem witness_OverflowFlagIsSignedOverflow : State.reset.flag .decimal = false := by decide

/-- Decimal mode with the digits 9 and 9 on both sides. -/
theorem witness_DecimalAdcAddsDecimalNumbers :
    (before 0 0x29 0 0x99 0 0 []).flag .decimal = true ∧ IsBcd ((before 0 0x29 0 0x99 0 0 []).reg .a) ∧
    IsBcd (Ctx.mk 0x99 0 .immediate).operand := by decide

/-- Decimal mode with 0 and 0, the case that borrows. -/
theorem witness_DecimalSbcSubtractsDecimalNumbers :
    (before 0 0x29 0 0x00 0 0 []).flag .decimal = true ∧ IsBcd ((before 0 0x29 0 0x00 0 0 []).reg .a) ∧
    IsBcd (Ctx.mk 0x00 0 .immediate).operand := by decide

theorem witness_WideWidthIsNotObservable : 17 ≤ 17 := by decide

/-- Both destinations. -/
theorem witness_ShiftsMoveTheOperand :
    (Ctx.mk 0x81 0 .accumulator).mode = .accumulator ∧ (Ctx.mk 0x40 0x0010 .zeroPage).mode ≠ .accumulator := by
  decide

theorem witness_StackedReturnAddressIsLittleEndian : (before 0 0x20 1 0 0 0 []).reg .sp ≠ 0#8 := by decide

/-- The stack pointer at both ends of its page. -/
theorem witness_PushWritesThenMovesDown :
    (0x0100#16).toNat = 0x100 + (State.reset.reg .sp).toNat ∧
    (0x01FF#16).toNat = 0x100 + ((before 0 0x20 0xFF 0 0 0 []).reg .sp).toNat := by decide

theorem witness_PullUndoesPush :
    (0x0101#16).toNat = 0x100 + ((State.reset.reg .sp).toNat + 1) % 256 ∧
    (0x0100#16).toNat = 0x100 + (((before 0 0x20 0xFF 0 0 0 []).reg .sp).toNat + 1) % 256 := by decide

theorem witness_PlpAfterBrkRestoresTheStatus : State.reset.bit5Set := by decide

/-- Register 5; index 8; status bit 5; value 2; a legal call at the top of every range. -/
theorem witness_SetRegBitMutatesOneBit :
    (∀ call : Accessor, Presents (presented [.operation (.access call)]) (.operation (.access call)) [] ∧
      (presented [.operation (.access call)]).bit5Set) ∧
    4 < (5#8).toNat ∧ ((4#8).toNat ≤ 4 ∧ 7 < (8#8).toNat) ∧ ((0#8).toNat = 0 ∧ (5#8).toNat = 5) ∧
    ((0#8).toNat ≤ 4 ∧ (7#8).toNat ≤ 7 ∧ ¬((0#8).toNat = 0 ∧ (7#8).toNat = 5) ∧ 1 < (2#8).toNat) ∧
    ((4#8).toNat ≤ 4 ∧ (5#8).toNat ≤ 7 ∧ ¬((4#8).toNat = 0 ∧ (5#8).toNat = 5) ∧ (1#8).toNat ≤ 1) :=
  ⟨fun _ => ⟨⟨rfl, rfl⟩, by show (0x20#8).getLsbD 5 = true; decide⟩, by decide⟩

theorem witness_GetRegBitReturnsTheBit :
    (∀ call : Accessor, Presents (presented [.operation (.access call)]) (.operation (.access call)) []) ∧
    4 < (5#8).toNat ∧ ((4#8).toNat ≤ 4 ∧ 7 < (8#8).toNat) ∧ (Reg.status.index = (0#8).toNat ∧ (5#8).toNat ≤ 7) ∧
    (Reg.y.index = (4#8).toNat ∧ (7#8).toNat ≤ 7) := ⟨fun _ => ⟨rfl, rfl⟩, by decide⟩

theorem witness_SetFlagWritesOneFlag :
    (∀ call : Accessor, Presents (presented [.operation (.access call)]) (.operation (.access call)) [] ∧
      (presented [.operation (.access call)]).bit5Set) ∧
    7 < (8#8).toNat ∧ (5#8).toNat = 5 ∧ ((7#8).toNat ≤ 7 ∧ (7#8).toNat ≠ 5 ∧ 1 < (2#8).toNat) ∧
    ((7#8).toNat ≤ 7 ∧ (7#8).toNat ≠ 5 ∧ (1#8).toNat ≤ 1) :=
  ⟨fun _ => ⟨⟨rfl, rfl⟩, by show (0x20#8).getLsbD 5 = true; decide⟩, by decide⟩

theorem witness_GetFlagReturnsTheFlag :
    (∀ call : Accessor, Presents (presented [.operation (.access call)]) (.operation (.access call)) []) ∧
    7 < (8#8).toNat ∧ (5#8).toNat = 5 ∧ ((7#8).toNat ≤ 7 ∧ (7#8).toNat ≠ 5) := ⟨fun _ => ⟨rfl, rfl⟩, by decide⟩

theorem witness_SetRegByteWritesTheRegister :
    (∀ call : Accessor, Presents (presented [.operation (.access call)]) (.operation (.access call)) []) ∧
    4 < (5#8).toNat ∧ Reg.status.index = (0#8).toNat ∧ Reg.y.index = (4#8).toNat := ⟨fun _ => ⟨rfl, rfl⟩, by decide⟩

theorem witness_GetRegByteReturnsTheRegister :
    (∀ call : Accessor, Presents (presented [.operation (.access call)]) (.operation (.access call)) []) ∧
    4 < (5#8).toNat ∧ Reg.status.index = (0#8).toNat ∧ Reg.y.index = (4#8).toNat := ⟨fun _ => ⟨rfl, rfl⟩, by decide⟩

theorem witness_AccessorRoundTrips :
    ((presented [.operation (.access (.setRegBit 4 7 1)), .operation (.access (.getRegBit 4 7))]).fault = none ∧
      (4#8).toNat ≤ 4 ∧ (7#8).toNat ≤ 7 ∧ ¬((4#8).toNat = 0 ∧ (7#8).toNat = 5) ∧ (1#8).toNat ≤ 1 ∧
      (presented [.operation (.access (.setRegBit 4 7 1)), .operation (.access (.getRegBit 4 7))]).inbox =
        [.operation (.access (.setRegBit 4 7 1)), .operation (.access (.getRegBit 4 7))]) ∧
    ((presented [.operation (.access (.setRegByte 0 0)), .operation (.access (.getRegByte 0))]).fault = none ∧
      (0#8).toNat ≤ 4 ∧
      (presented [.operation (.access (.setRegByte 0 0)), .operation (.access (.getRegByte 0))]).inbox =
        [.operation (.access (.setRegByte 0 0)), .operation (.access (.getRegByte 0))]) := by decide

/-- A legal call and an illegal one. -/
theorem witness_AccessorFaultsExactlyOnIllegalArguments :
    Presents (presented [.operation (.access (.getFlag 7))]) (.operation (.access (.getFlag 7))) [] ∧
    (Accessor.getFlag 7).wellFormed = true ∧
    Presents (presented [.operation (.access (.getFlag 8))]) (.operation (.access (.getFlag 8))) [] ∧
    (Accessor.getFlag 8).wellFormed = false := ⟨⟨rfl, rfl⟩, by decide, ⟨rfl, rfl⟩, by decide⟩

/-- Equal reads of one memory reached by two orders of writing. -/
theorem witness_EqualMemoriesAreEqualData :
    ∃ m n : Memory, m ≠ [] ∧ Memory.wf m ∧ Memory.wf n ∧ ∀ addr : Nat, Memory.read m addr = Memory.read n addr :=
  ⟨Memory.write (Memory.write [] 0 1#8) 65535 2#8, Memory.write (Memory.write [] 65535 2#8) 0 1#8, by decide,
    by decide, by decide, fun _ => rfl⟩

theorem witness_MemoryWritesBehaveAsAnArray :
    Memory.wf [(0, 1#8), (65535, 2#8)] ∧ 0 < Config.memorySize ∧ 65535 < Config.memorySize ∧ 0 ≠ 65535 := by decide

end Sys2Proof.Tests
end

section
/-! PROOFS for 00_scope.md R4 to R6: what one presented event does. -/
namespace Sys2Proof.Machine

open Sys2Proof Sys2Proof.Claims

/-- EXECUTE of a word that decodes is its handler and nothing more. -/
theorem execute_of_decode_ok {cw : CtrlWord} {i : Instr} (h : decode cw = .ok i) (s : State) :
    execute cw s = exec i s := by
  simp [execute, h]

/-- Settles O3: the block takes what is presented, and EXECUTE of a decodable word is its handler. -/
theorem stepRunsTheDecodedInstruction : Obligations.StepRunsTheDecodedInstruction := by
  rintro s cw rest i ⟨hfault, hinbox⟩ hdecode
  calc step s = serve (.operation (.execute cw)) { s with inbox := rest } := step_presented hfault hinbox
    _ = execute cw { s with inbox := rest } := rfl
    _ = exec i { s with inbox := rest } := execute_of_decode_ok hdecode _

/-- Settles O6: each environment write is one update of the state, of `pc` or of one byte. -/
theorem environmentWritesOnlyPcAndMemory : Obligations.EnvironmentWritesOnlyPcAndMemory := by
  constructor
  · rintro s v rest ⟨hfault, hinbox⟩
    exact step_presented hfault hinbox
  · rintro s p v rest ⟨hfault, hinbox⟩
    exact ⟨_, step_presented hfault hinbox, fun q => State.readByte_writeByte _ p q v, rfl⟩

end Sys2Proof.Machine
end

section
/-! SUPPORT. The flag computation engine, additions, subtractions and compares over unbounded numbers: what a handler
of 42_arithmetic.md computes, with WIDE gone from the statement. -/
namespace Sys2Proof.Machine

open Sys2Proof Sys2Proof.Claims

/-! The flag computation engine as numbers (R68 to R73). -/

theorem carryBin_eq (r : Wide) : carryBin r = decide (0xFF < r.toNat) := by
  simp [carryBin, BitVec.lt_def]

theorem carryBcd_eq (r : Wide) : carryBcd r = decide (0x99 < r.toNat) := by
  simp [carryBcd, BitVec.lt_def]

theorem carryNoBorrow_eq (r : Wide) : carryNoBorrow r = decide (r.toNat < 0x100) := by
  simp [carryNoBorrow, BitVec.lt_def]

theorem signOf_eq (r : Wide) : signOf r = r.toNat.testBit 7 := rfl

theorem ovfAdd_eq (a b r : Wide) : ovfAdd a b r = addOverflow a.toNat b.toNat r.toNat := by
  simp only [ovfAdd, addOverflow, ne_eq, and_signMask_eq_zero_iff, BitVec.getLsbD_xor, BitVec.testBit_toNat]
  cases a.getLsbD 7 <;> cases b.getLsbD 7 <;> cases r.getLsbD 7 <;> rfl

theorem ovfSub_eq (a b r : Wide) : ovfSub a b r = subOverflow a.toNat b.toNat r.toNat := by
  simp only [ovfSub, subOverflow, ne_eq, and_signMask_eq_zero_iff, BitVec.getLsbD_xor, BitVec.testBit_toNat]
  cases a.getLsbD 7 <;> cases b.getLsbD 7 <;> cases r.getLsbD 7 <;> rfl

/-! ADC in naturals (R76). -/

/-- The raw sum. -/
def adcSum (x y : Byte) (c : Bool) : Nat := c.toNat + x.toNat + y.toNat

/-- The sum after the first decimal correction. -/
def adcOnce (x y : Byte) (c d : Bool) : Nat :=
  if d = true ∧ 9 < x.toNat % 16 + y.toNat % 16 + c.toNat then adcSum x y c + 6 else adcSum x y c

/-- The sum after both decimal corrections. -/
def adcTwice (x y : Byte) (c d : Bool) : Nat :=
  if d = true ∧ 0x99 < adcOnce x y c d then adcOnce x y c d + 96 else adcOnce x y c d

theorem adcSum_lt (x y : Byte) (c : Bool) : adcSum x y c < 512 := by
  have := x.isLt
  have := y.isLt
  have := c.toNat_le
  unfold adcSum
  omega

theorem adcOnce_lt (x y : Byte) (c d : Bool) : adcOnce x y c d < 518 := by
  have := adcSum_lt x y c
  unfold adcOnce
  split <;> omega

theorem adcTwice_lt (x y : Byte) (c d : Bool) : adcTwice x y c d < 614 := by
  have := adcOnce_lt x y c d
  unfold adcTwice
  split <;> omega

theorem toNat_wide_sum (x y : Byte) (c : Bool) : (wideBit c + wide x + wide y).toNat = adcSum x y c := by
  have := adcSum_lt x y c
  simp only [BitVec.toNat_add, toNat_wide, toNat_wideBit]
  unfold adcSum at *
  omega

theorem toNat_adjustOnce (x y : Byte) (c : Bool) :
    (adjustOnce (wide x) (wide y) (wideBit c) (wideBit c + wide x + wide y)).toNat = adcOnce x y c true := by
  have hsum := toNat_wide_sum x y c
  have hlt := adcSum_lt x y c
  have hc := c.toNat_le
  have hnibbles : ((wide x &&& 0xF#32) + (wide y &&& 0xF#32) + wideBit c).toNat =
      x.toNat % 16 + y.toNat % 16 + c.toNat := by
    simp only [BitVec.toNat_add, toNat_lowNibble, toNat_wide, toNat_wideBit]
    omega
  simp only [adjustOnce, adcOnce, BitVec.lt_def, hnibbles, BitVec.toNat_ofNat, true_and]
  split
  · rw [BitVec.toNat_add, hsum]
    exact Nat.mod_eq_of_lt (by simp; omega)
  · exact hsum

theorem toNat_adjustTwice {once : Wide} (h : once.toNat < 518) :
    (adjustTwice once).toNat = if 0x99 < once.toNat then once.toNat + 96 else once.toNat := by
  simp only [adjustTwice, BitVec.lt_def, BitVec.toNat_ofNat]
  split
  · rw [BitVec.toNat_add]
    exact Nat.mod_eq_of_lt (by simp; omega)
  · rfl

/-- The once-adjusted sum as `addWithCarry` computes it. -/
theorem toNat_addWithCarry_once (x y : Byte) (c d : Bool) :
    (if d then adjustOnce (wide x) (wide y) (wideBit c) (wideBit c + wide x + wide y)
      else wideBit c + wide x + wide y).toNat = adcOnce x y c d := by
  cases d with
  | false => simpa [adcOnce] using toNat_wide_sum x y c
  | true => simp [toNat_adjustOnce]

/-- The sum after both corrections as `addWithCarry` computes it. -/
theorem toNat_addWithCarry_final (x y : Byte) (c d : Bool) (once : Wide) (h : once.toNat = adcOnce x y c d) :
    (if d then adjustTwice once else once).toNat = adcTwice x y c d := by
  have hlt := adcOnce_lt x y c d
  cases d with
  | false => simp [adcTwice, h]
  | true => simp [adcTwice, toNat_adjustTwice (h ▸ hlt), h]

/-- ADC's byte and flags, from the sums in naturals (R76). -/
theorem addWithCarry_eq (x y : Byte) (c d : Bool) :
    (addWithCarry x y c d).value.toNat = adcTwice x y c d % 256 ∧
    (addWithCarry x y c d).carry =
      (if d = true then decide (0x99 < adcTwice x y c d) else decide (0xFF < adcTwice x y c d)) ∧
    (addWithCarry x y c d).zero = decide (adcSum x y c % 256 = 0) ∧
    (addWithCarry x y c d).sign = (adcOnce x y c d).testBit 7 ∧
    (addWithCarry x y c d).overflow = addOverflow x.toNat y.toNat (adcOnce x y c d) := by
  have honce := toNat_addWithCarry_once x y c d
  have htwice := toNat_addWithCarry_final x y c d _ honce
  simp only [addWithCarry, toNat_trunc8, carryBcd_eq, carryBin_eq, zeroOf_eq, signOf_eq, ovfAdd_eq, toNat_wide,
    toNat_wide_sum, honce, htwice, and_self]

/-! Integers modulo 2^w (R10): what can be seen of one does not depend on a width of 17 bits or more. -/

theorem ofInt_sub (w : Nat) (z k : Int) : BitVec.ofInt w (z - k) = BitVec.ofInt w z - BitVec.ofInt w k :=
  eq_sub_of_add_eq (by rw [← BitVec.ofInt_add, sub_add_cancel])

theorem toNat_ofInt_natCast {w n : Nat} (h : n < 2 ^ w) : (BitVec.ofInt w n).toNat = n := by
  rw [BitVec.ofInt_natCast, BitVec.toNat_ofNat, Nat.mod_eq_of_lt h]

/-- Subtraction modulo 2^w is subtraction of integers, taken modulo 2^w. -/
theorem subMod_ofInt {w n : Nat} (z : Int) (h : n < 2 ^ w) :
    subMod w (BitVec.ofInt w z).toNat n = (BitVec.ofInt w (z - n)).toNat := by
  rw [ofInt_sub, BitVec.toNat_sub, toNat_ofInt_natCast h, subMod]
  congr 1
  omega

theorem toNat_ofInt_mod_256 {w : Nat} (hw : 17 ≤ w) (z : Int) :
    (BitVec.ofInt w z).toNat % 256 = (z % 256).toNat := by
  have hdvd : (256 : Int) ∣ 2 ^ w := pow_dvd_pow 2 (show 8 ≤ w by omega)
  have hmod := Int.emod_emod_of_dvd z hdvd
  have hpos : 0 ≤ z % 2 ^ w := Int.emod_nonneg z (by positivity)
  rw [BitVec.toNat_ofInt]
  push_cast
  omega

theorem toNat_ofInt_testBit_seven {w : Nat} (hw : 17 ≤ w) (z : Int) :
    (BitVec.ofInt w z).toNat.testBit 7 = (z % 256).toNat.testBit 7 := by
  rw [← toNat_ofInt_mod_256 hw, show 256 = 2 ^ 8 from rfl, Nat.testBit_mod_two_pow]
  simp

/-- The 17-bit domain of the differences: every value ADC, SBC or a compare reaches lies in it. -/
abbrev Fits17 (z : Int) : Prop := -65536 ≤ z ∧ z < 65536

/-- A negative value of the domain stands 2^w higher, so above every byte and every address. -/
theorem toNat_ofInt_of_fits17 {w : Nat} (hw : 17 ≤ w) {z : Int} (hz : Fits17 z) :
    ((BitVec.ofInt w z).toNat : Int) = if z < 0 then z + 2 ^ w else z := by
  obtain ⟨hlow, hhigh⟩ := hz
  have hpow : (2 : Int) ^ 17 ≤ 2 ^ w := pow_le_pow_right₀ (by decide) hw
  have hpos : 0 ≤ z % 2 ^ w := Int.emod_nonneg z (by positivity)
  rw [BitVec.toNat_ofInt]
  push_cast
  rw [Int.toNat_of_nonneg hpos]
  split
  · rw [← Int.add_emod_right, Int.emod_eq_of_lt (by omega) (by omega)]
  · exact Int.emod_eq_of_lt (by omega) (by omega)

theorem bcdMax_lt_toNat_ofInt_iff {w : Nat} (hw : 17 ≤ w) {z : Int} (hz : Fits17 z) :
    0x99 < (BitVec.ofInt w z).toNat ↔ z < 0 ∨ 0x99 < z := by
  have hval := toNat_ofInt_of_fits17 hw hz
  have hpow : (2 : Int) ^ 17 ≤ 2 ^ w := pow_le_pow_right₀ (by decide) hw
  split at hval <;> omega

theorem toNat_ofInt_lt_256_iff {w : Nat} (hw : 17 ≤ w) {z : Int} (hz : Fits17 z) :
    (BitVec.ofInt w z).toNat < 0x100 ↔ 0 ≤ z ∧ z < 256 := by
  have hval := toNat_ofInt_of_fits17 hw hz
  have hpow : (2 : Int) ^ 17 ≤ 2 ^ w := pow_le_pow_right₀ (by decide) hw
  split at hval <;> omega

theorem toNat_ofInt_mod_256_eq_zero_iff {w : Nat} (hw : 17 ≤ w) (z : Int) :
    (BitVec.ofInt w z).toNat % 256 = 0 ↔ z % 256 = 0 := by
  rw [toNat_ofInt_mod_256 hw]
  omega

theorem subOverflow_ofInt {w : Nat} (hw : 17 ≤ w) (a m : Nat) (z : Int) :
    subOverflow a m (BitVec.ofInt w z).toNat = subOverflow a m (z % 256).toNat := by
  simp only [subOverflow, toNat_ofInt_testBit_seven hw]

/-! The values taken into WIDE, as integers. -/

theorem wide_eq_ofInt (v : Byte) : wide v = BitVec.ofInt 32 v.toNat :=
  BitVec.eq_of_toNat_eq (by rw [toNat_wide, toNat_ofInt_natCast (by omega)])

theorem wideAddr_eq_ofInt (v : Addr) : wideAddr v = BitVec.ofInt 32 v.toNat :=
  BitVec.eq_of_toNat_eq (by rw [toNat_wideAddr, toNat_ofInt_natCast (by omega)])

theorem wideBit_eq_ofInt (b : Bool) : wideBit b = BitVec.ofInt 32 b.toNat := by cases b <;> rfl

/-! SBC in integers (R77). -/

/-- The difference before any correction. -/
def sbcDiff (x y : Byte) (c : Bool) : Int := (x.toNat : Int) - y.toNat - c.toNat

/-- The difference after the first decimal correction. -/
def sbcOnce (x y : Byte) (c d : Bool) : Int :=
  if d = true ∧ ((x.toNat % 16 : Nat) : Int) - c.toNat < (y.toNat % 16 : Nat) then sbcDiff x y c - 6
  else sbcDiff x y c

/-- The difference after both decimal corrections. -/
def sbcTwice (x y : Byte) (c d : Bool) : Int :=
  if d = true ∧ (sbcOnce x y c d < 0 ∨ 0x99 < sbcOnce x y c d) then sbcOnce x y c d - 0x60 else sbcOnce x y c d

theorem sbcDiff_bounds (x y : Byte) (c : Bool) : -256 ≤ sbcDiff x y c ∧ sbcDiff x y c < 256 := by
  have := x.isLt
  have := y.isLt
  have := c.toNat_le
  unfold sbcDiff
  omega

theorem sbcOnce_bounds (x y : Byte) (c d : Bool) : -262 ≤ sbcOnce x y c d ∧ sbcOnce x y c d < 256 := by
  have := sbcDiff_bounds x y c
  unfold sbcOnce
  split <;> omega

theorem sbcOnce_fits17 (x y : Byte) (c d : Bool) : Fits17 (sbcOnce x y c d) := by
  have := sbcOnce_bounds x y c d
  omega

theorem sbcTwice_fits17 (x y : Byte) (c d : Bool) : Fits17 (sbcTwice x y c d) := by
  have := sbcOnce_bounds x y c d
  unfold sbcTwice
  split <;> omega

theorem wide_sub_eq_ofInt (x y : Byte) (c : Bool) :
    wide x - wide y - wideBit c = BitVec.ofInt 32 (sbcDiff x y c) := by
  simp only [wide_eq_ofInt, wideBit_eq_ofInt, ← ofInt_sub, sbcDiff]

theorem borrowOnce_eq_ofInt (x y : Byte) (c : Bool) :
    borrowOnce (wide x) (wide y) (wideBit c) (BitVec.ofInt 32 (sbcDiff x y c)) =
      BitVec.ofInt 32 (sbcOnce x y c true) := by
  simp only [borrowOnce, sbcOnce, toNat_lowNibble, toNat_wide, toNat_wideBit, true_and]
  split
  · rw [ofInt_sub]; rfl
  · rfl

theorem borrowTwice_ofInt {z : Int} (hz : Fits17 z) :
    borrowTwice (BitVec.ofInt 32 z) = BitVec.ofInt 32 (if z < 0 ∨ 0x99 < z then z - 0x60 else z) := by
  have hlt : 0x99#32 < BitVec.ofInt 32 z ↔ z < 0 ∨ 0x99 < z := bcdMax_lt_toNat_ofInt_iff (by decide) hz
  simp only [borrowTwice, hlt]
  split
  · rw [ofInt_sub]; rfl
  · rfl

/-- The difference after both corrections as `subtractWithCarry` computes it. -/
theorem subtractWithCarry_final_eq_ofInt (x y : Byte) (c d : Bool) :
    (if d then borrowTwice (borrowOnce (wide x) (wide y) (wideBit c) (BitVec.ofInt 32 (sbcDiff x y c)))
      else BitVec.ofInt 32 (sbcDiff x y c)) = BitVec.ofInt 32 (sbcTwice x y c d) := by
  cases d with
  | false => simp [sbcTwice, sbcOnce]
  | true => simp [sbcTwice, borrowOnce_eq_ofInt, borrowTwice_ofInt (sbcOnce_fits17 x y c true)]

/-- SBC's byte and flags, from the differences in integers (R77). -/
theorem subtractWithCarry_eq (x y : Byte) (c d : Bool) :
    (subtractWithCarry x y c d).value.toNat = (sbcTwice x y c d % 256).toNat ∧
    (subtractWithCarry x y c d).carry = decide (0 ≤ sbcTwice x y c d ∧ sbcTwice x y c d < 256) ∧
    (subtractWithCarry x y c d).zero = decide (sbcDiff x y c % 256 = 0) ∧
    (subtractWithCarry x y c d).sign = (sbcDiff x y c % 256).toNat.testBit 7 ∧
    (subtractWithCarry x y c d).overflow = subOverflow x.toNat y.toNat (sbcDiff x y c % 256).toNat := by
  have h32 : 17 ≤ 32 := by decide
  have hcarry := toNat_ofInt_lt_256_iff h32 (sbcTwice_fits17 x y c d)
  have hzero := toNat_ofInt_mod_256_eq_zero_iff h32 (sbcDiff x y c)
  simp only [subtractWithCarry, wide_sub_eq_ofInt, subtractWithCarry_final_eq_ofInt, carryNoBorrow_eq, zeroOf_eq,
    signOf_eq, ovfSub_eq, toNat_wide, toNat_trunc8, hcarry, hzero, true_and]
  exact ⟨toNat_ofInt_mod_256 h32 _, toNat_ofInt_testBit_seven h32 _, subOverflow_ofInt h32 _ _ _⟩

/-! The compares in integers (R78 to R80). -/

theorem compareDiff_fits17 (v : Byte) (ea : Addr) : Fits17 ((v.toNat : Int) - ea.toNat) := by
  have := v.isLt
  have := ea.isLt
  omega

/-- The flags a compare leaves, from the difference in integers. -/
theorem State.compare_flags (s : State) (r : Reg) (ctx : Ctx) :
    (s.compare r ctx).flag .carry =
      decide (0 ≤ ((s.reg r).toNat : Int) - ctx.ea.toNat ∧ ((s.reg r).toNat : Int) - ctx.ea.toNat < 256) ∧
    (s.compare r ctx).flag .zero = decide ((((s.reg r).toNat : Int) - ctx.ea.toNat) % 256 = 0) ∧
    (s.compare r ctx).flag .sign = ((((s.reg r).toNat : Int) - ctx.ea.toNat) % 256).toNat.testBit 7 := by
  have h32 : 17 ≤ 32 := by decide
  have hcarry := toNat_ofInt_lt_256_iff h32 (compareDiff_fits17 (s.reg r) ctx.ea)
  have hzero := toNat_ofInt_mod_256_eq_zero_iff h32 (((s.reg r).toNat : Int) - ctx.ea.toNat)
  simp only [State.flag_compare, wide_eq_ofInt, wideAddr_eq_ofInt, ← ofInt_sub, carryNoBorrow_eq, zeroOf_eq, signOf_eq,
    hcarry, hzero, true_and]
  exact toNat_ofInt_testBit_seven h32 _

end Sys2Proof.Machine
end

section
/-! PROOFS for 00_scope.md R10: the same computations modulo 2^w on unsigned numbers, and why 17 bits suffice. -/
namespace Sys2Proof.Machine

open Sys2Proof Sys2Proof.Claims

section Width

variable {w : Nat} (hw : 17 ≤ w)
include hw

theorem lt_two_pow_of_lt {n : Nat} (hn : n < 2 ^ 17) : n < 2 ^ w :=
  lt_of_lt_of_le hn (Nat.pow_le_pow_right two_pos hw)

theorem adcSum_mod (x y : Byte) (c : Bool) : (c.toNat + x.toNat + y.toNat) % 2 ^ w = adcSum x y c :=
  Nat.mod_eq_of_lt (lt_two_pow_of_lt hw (lt_trans (adcSum_lt x y c) (by decide)))

theorem adcOnce_mod (x y : Byte) (c d : Bool) :
    (if d = true ∧ 9 < x.toNat % 16 + y.toNat % 16 + c.toNat then (adcSum x y c + 6) % 2 ^ w else adcSum x y c) =
      adcOnce x y c d := by
  have hlt := adcSum_lt x y c
  rw [Nat.mod_eq_of_lt (lt_two_pow_of_lt hw (by omega)), adcOnce]

theorem adcTwice_mod (x y : Byte) (c d : Bool) :
    (if d = true ∧ 0x99 < adcOnce x y c d then (adcOnce x y c d + 96) % 2 ^ w else adcOnce x y c d) =
      adcTwice x y c d := by
  have hlt := adcOnce_lt x y c d
  rw [Nat.mod_eq_of_lt (lt_two_pow_of_lt hw (by omega)), adcTwice]

/-- A difference of two numbers below 2^17. -/
theorem subMod_eq_ofInt {n k : Nat} (hn : n < 2 ^ 17) (hk : k < 2 ^ 17) :
    subMod w n k = (BitVec.ofInt w ((n : Int) - k)).toNat := by
  rw [← subMod_ofInt _ (lt_two_pow_of_lt hw hk), toNat_ofInt_natCast (lt_two_pow_of_lt hw hn)]

theorem sbcDiff_mod (x y : Byte) (c : Bool) :
    subMod w (subMod w x.toNat y.toNat) c.toNat = (BitVec.ofInt w (sbcDiff x y c)).toNat := by
  have hc := c.toNat_le
  rw [subMod_eq_ofInt hw (n := x.toNat) (by omega) (by omega), subMod_ofInt _ (lt_two_pow_of_lt hw (by omega)), sbcDiff]

theorem sbcOnce_mod (x y : Byte) (c d : Bool) :
    (if d = true ∧ ((x.toNat % 16 : Nat) : Int) - c.toNat < (y.toNat % 16 : Nat)
      then subMod w (BitVec.ofInt w (sbcDiff x y c)).toNat 6 else (BitVec.ofInt w (sbcDiff x y c)).toNat) =
      (BitVec.ofInt w (sbcOnce x y c d)).toNat := by
  rw [subMod_ofInt _ (lt_two_pow_of_lt hw (by decide)), sbcOnce]
  split <;> rfl

theorem sbcTwice_mod (x y : Byte) (c d : Bool) :
    (if d = true ∧ 0x99 < (BitVec.ofInt w (sbcOnce x y c d)).toNat
      then subMod w (BitVec.ofInt w (sbcOnce x y c d)).toNat 0x60 else (BitVec.ofInt w (sbcOnce x y c d)).toNat) =
      (BitVec.ofInt w (sbcTwice x y c d)).toNat := by
  simp only [subMod_ofInt _ (lt_two_pow_of_lt hw (show 0x60 < 2 ^ 17 by decide)), sbcTwice,
    bcdMax_lt_toNat_ofInt_iff hw (sbcOnce_fits17 x y c d)]
  split <;> rfl

end Width

/-- Settles O30: at every width of 17 bits or more the sums do not wrap, and the differences are integers of a 17-bit
domain, of which the low byte, the sign and the comparisons with a byte are seen alike. -/
theorem wideWidthIsNotObservable : Obligations.WideWidthIsNotObservable := by
  intro w hw ctx s
  refine ⟨?_, ?_, ?_⟩
  · obtain ⟨hvalue, hcarry, hzero, hsign, hovf⟩ :=
      addWithCarry_eq (s.reg .a) ctx.operand (s.flag .carry) (s.flag .decimal)
    simp only [adcSum_mod hw, adcOnce_mod hw, adcTwice_mod hw]
    refine ⟨_, rfl, ?_⟩
    simp only [State.writeAlu_a, State.flag_writeAlu, inputByte_eq]
    exact ⟨hvalue, hcarry, hzero, hsign, hovf⟩
  · obtain ⟨hvalue, hcarry, hzero, hsign, hovf⟩ :=
      subtractWithCarry_eq (s.reg .a) ctx.operand (s.flag .carry) (s.flag .decimal)
    simp only [sbcDiff_mod hw, sbcOnce_mod hw, sbcTwice_mod hw, toNat_ofInt_mod_256_eq_zero_iff hw,
      toNat_ofInt_lt_256_iff hw (sbcTwice_fits17 _ _ _ _), toNat_ofInt_testBit_seven hw, subOverflow_ofInt hw]
    refine ⟨_, rfl, ?_⟩
    simp only [State.writeAlu_a, State.flag_writeAlu, inputByte_eq, toNat_ofInt_mod_256 hw]
    exact ⟨hvalue, hcarry, hzero, hsign, hovf⟩
  · have hcompare (r : Reg) : subMod w (s.reg r).toNat ctx.ea.toNat =
        (BitVec.ofInt w (((s.reg r).toNat : Int) - ctx.ea.toNat)).toNat :=
      subMod_eq_ofInt hw (by omega) (by omega)
    simp only [hcompare, toNat_ofInt_lt_256_iff hw (compareDiff_fits17 _ _), toNat_ofInt_mod_256_eq_zero_iff hw,
      toNat_ofInt_testBit_seven hw, List.forall_mem_cons, List.not_mem_nil, false_imp_iff, implies_true, and_true]
    exact ⟨⟨_, rfl, s.compare_flags .a ctx⟩, ⟨_, rfl, s.compare_flags .x ctx⟩, ⟨_, rfl, s.compare_flags .y ctx⟩⟩

end Sys2Proof.Machine
end

section
/-! SUPPORT. What each instruction may write: the columns "written by" of R24, R28 and R38 read by row, and the one lemma
that every handler stays inside its row. -/
namespace Sys2Proof

open Sys2Proof.Machine

/-- The registers, other than the status register, that an instruction may write (R24). -/
def Instr.writtenRegs : Instr → List Reg
  | .adc _ | .sbc _ | .lda _ | .tya _ | .and _ | .ora _ => [.a]
  | .asl ctx | .lsr ctx => if ctx.mode = .accumulator then [.a] else []
  | .ldx _ => [.x]
  | .ldy _ | .tay _ => [.y]
  | .jsr _ | .brk _ | .plp _ => [.sp]
  | .pla _ => [.sp, .a]
  | _ => []

/-- The flags an instruction may write (R28). -/
def Instr.writtenFlags : Instr → List Flag
  | .adc _ | .sbc _ => [.zero, .sign, .overflow, .carry]
  | .asl _ | .lsr _ | .cmp _ | .cpx _ | .cpy _ => [.carry, .sign, .zero]
  | .lda _ | .ldx _ | .ldy _ | .and _ | .ora _ | .pla _ => [.sign, .zero]
  | .bit _ => [.overflow, .sign, .zero]
  | .clc _ | .sec _ => [.carry]
  | .cld _ => [.decimal]
  | .cli _ => [.interruptDisable]
  | .clv _ => [.overflow]
  | .brk _ => [.breakFlag, .decimal]
  | .plp _ => [.carry, .zero, .interruptDisable, .decimal, .breakFlag, .overflow, .sign]
  | _ => []

/-- The addresses an instruction may store to, from the state it starts in (R38). -/
def Instr.writtenBytes (s : State) : Instr → List Addr
  | .sta ctx | .stx ctx => [ctx.ea]
  | .asl ctx | .lsr ctx => if ctx.mode = .accumulator then [] else [ctx.ea]
  | .jsr _ => [stackAddr s.sp, stackAddr (s.sp - 1#8)]
  | .brk _ => [stackAddr s.sp, stackAddr (s.sp - 1#8), stackAddr (s.sp - 2#8)]
  | _ => []

end Sys2Proof

namespace Sys2Proof.Machine

open Sys2Proof

/-- A whole write of the status register may change every flag (R28). -/
theorem Frame.setReg_status (s : State) (v : Byte) :
    Frame [] [.carry, .zero, .interruptDisable, .decimal, .breakFlag, .overflow, .sign] [] s (s.setReg .status v) :=
  ⟨fun q hq _ => State.reg_setReg_other s .status q v hq, fun f hn => absurd (by cases f <;> simp) hn,
    State.bit5Set_setReg s .status v, fun _ _ => rfl, rfl, rfl, rfl⟩

theorem Frame.execJsr (ctx : Ctx) (s : State) :
    Frame [.sp] [] [stackAddr s.sp, stackAddr (s.sp - 1#8)] s
      (((s.setPc (s.pc - 1#16)).pushPc).setPc (callTarget ctx)) :=
  (((Frame.setPc s _).trans (Frame.pushPc _)).trans (Frame.setPc _ _)).mono (by simp) (by simp) (by simp)

/-- BRK pushes three bytes, then writes two flags (R115). -/
theorem Frame.execBrk (s u : State) (hu : u = (s.setPc (s.pc + 1#16)).pushPc) :
    Frame [.sp] [.breakFlag, .decimal] [stackAddr s.sp, stackAddr (s.sp - 1#8), stackAddr (s.sp - 2#8)] s
      (((u.push (u.reg .status)).setFlag .breakFlag true).setFlag .decimal true) := by
  have hsp : u.sp = s.sp - 2#8 := by simp [hu]
  have hpushed : Frame [.sp, .sp] [] [stackAddr s.sp, stackAddr (s.sp - 1#8)] s u :=
    hu ▸ (Frame.setPc s _).trans (Frame.pushPc _)
  exact ((hpushed.trans (Frame.push u _)).trans ((Frame.setFlag _ .breakFlag true).trans
    (Frame.setFlag _ .decimal true))).mono (by simp) (by simp) (by simp [hsp])

/-- Every handler completes, and writes at most what its row of R24, R28 and R38 names. -/
theorem exec_frame (i : Instr) (s : State) :
    ∃ t, exec i s = .next t ∧ Frame i.writtenRegs i.writtenFlags (i.writtenBytes s) s t := by
  cases i with
  | adc ctx | sbc ctx => exact ⟨_, rfl, Frame.writeAlu s _⟩
  | asl ctx | lsr ctx => exact ⟨_, rfl, Frame.finishShift s ctx _ _⟩
  | cmp ctx | cpx ctx | cpy ctx => exact ⟨_, rfl, Frame.compare s _ ctx⟩
  | bcc ctx | bcs ctx | beq ctx | bmi ctx | bne ctx | bpl ctx | bvc ctx | bvs ctx =>
    exact ⟨_, rfl, Frame.branchWhen s _ _ ctx⟩
  | jmp ctx => exact ⟨_, rfl, Frame.setPc s _⟩
  | jsr ctx => exact ⟨_, rfl, Frame.execJsr ctx s⟩
  | lda ctx | ldx ctx | ldy ctx => exact ⟨_, rfl, Frame.load s _ ctx (by decide)⟩
  | sta ctx | stx ctx => exact ⟨_, rfl, Frame.writeByte s _ _⟩
  | clc ctx | cld ctx | cli ctx | clv ctx | sec ctx => exact ⟨_, rfl, Frame.setFlag s _ _⟩
  | tay ctx | tya ctx => exact ⟨_, rfl, Frame.setReg s _ _ (by decide)⟩
  | and ctx | ora ctx => exact ⟨_, rfl, Frame.combine s _⟩
  | bit ctx =>
    exact ⟨_, rfl, ((Frame.setFlag s .overflow _).trans (Frame.setFlag _ .sign _)).trans (Frame.setFlag _ .zero _)⟩
  | nop ctx => exact ⟨_, rfl, Frame.refl s⟩
  | brk ctx => exact ⟨_, rfl, Frame.execBrk s _ rfl⟩
  | pla ctx =>
    exact ⟨_, rfl, ((Frame.popped s).trans (Frame.setReg _ .a _ (by decide))).trans (Frame.setSignZero _ _)⟩
  | plp ctx => exact ⟨_, rfl, (Frame.popped s).trans (Frame.setReg_status _ _)⟩

/-- The frame of a handler, at the next state it answers. -/
theorem frame_of_exec {i : Instr} {s t : State} (h : exec i s = .next t) :
    Frame i.writtenRegs i.writtenFlags (i.writtenBytes s) s t := by
  obtain ⟨u, hu, hframe⟩ := exec_frame i s
  cases hu.symm.trans h
  exact hframe

theorem exec_reg_eq {i : Instr} {s t : State} (h : exec i s = .next t) {r : Reg} (hs : r ≠ .status)
    (hr : r ∉ i.writtenRegs) : t.reg r = s.reg r :=
  (frame_of_exec h).1 r hs hr

theorem exec_flag_eq {i : Instr} {s t : State} (h : exec i s = .next t) {f : Flag} (hf : f ∉ i.writtenFlags) :
    t.flag f = s.flag f :=
  (frame_of_exec h).2.1 f hf

theorem exec_bit5Set {i : Instr} {s t : State} (h : exec i s = .next t) (hb : s.bit5Set) : t.bit5Set :=
  (frame_of_exec h).2.2.1 hb

/-- Every handler's stores keep the canonical form of memory. -/
theorem exec_wf {i : Instr} {s t : State} (h : exec i s = .next t) (hwf : Memory.wf s.mem) : Memory.wf t.mem := by
  cases i with
  | asl ctx | lsr ctx => cases h; exact State.wf_finishShift s ctx _ _ hwf
  | bcc ctx | bcs ctx | beq ctx | bmi ctx | bne ctx | bpl ctx | bvc ctx | bvs ctx =>
    cases h; rw [State.branchWhen_mem]; exact hwf
  | sta ctx | stx ctx => cases h; exact State.wf_writeByte s _ _ hwf
  | jsr ctx => cases h; exact State.wf_pushPc (s.setPc _) hwf
  | brk ctx => cases h; exact State.wf_push _ _ (State.wf_pushPc (s.setPc _) hwf)
  | _ => cases h; exact hwf

/-- EXECUTE of a word that does not decode raises its fault and nothing more (R54). -/
theorem execute_of_decode_error {cw : CtrlWord} {code : FaultCode} (h : decode cw = .error code) (s : State) :
    execute cw s = .next (s.raiseFault code) := by
  simp [execute, h]

@[simp] theorem State.setReg_pc (s : State) (r : Reg) (v : Byte) : (s.setReg r v).pc = s.pc := by cases r <;> rfl

@[simp] theorem State.setReg_mem (s : State) (r : Reg) (v : Byte) : (s.setReg r v).mem = s.mem := by cases r <;> rfl

end Sys2Proof.Machine
end

section
/-! PROOFS for 10_state.md: the invariant of the block, and who writes the program counter, the registers and the flags. -/
namespace Sys2Proof.Machine

open Sys2Proof Sys2Proof.Claims

/-- Settles O17: bit 5 is the one status bit set at creation, and no byte of memory is listed. -/
theorem creationStateMeetsTheInvariant : Obligations.CreationStateMeetsTheInvariant :=
  ⟨rfl, Memory.wf_nil⟩

/-! The invariant, from the handlers up to the step (R26). -/

theorem exec_inv {i : Instr} {s t : State} (h : exec i s = .next t) (hs : s.Inv) : t.Inv :=
  ⟨exec_bit5Set h hs.1, exec_wf h hs.2⟩

theorem execute_inv {cw : CtrlWord} {s t : State} (h : execute cw s = .next t) (hs : s.Inv) : t.Inv := by
  cases hd : decode cw with
  | ok i => exact exec_inv (execute_of_decode_ok hd s ▸ h) hs
  | error code => cases execute_of_decode_error hd s ▸ h; exact hs

theorem State.access_inv (s : State) (call : Accessor) (hs : s.Inv) : (s.access call).Inv := by
  obtain ⟨code, h⟩ | ⟨r, v, h⟩ | ⟨v, h⟩ := s.access_cases call
  · rw [h]; exact hs
  · rw [h]; exact ⟨State.bit5Set_setReg s r v hs.1, (s.setReg_mem r v).symm ▸ hs.2⟩
  · rw [h]; exact hs

theorem operate_inv {o : Operation} {s t : State} (h : operate o s = .next t) (hs : s.Inv) : t.Inv := by
  cases o with
  | execute cw => exact execute_inv h hs
  | access call => cases h; exact s.access_inv call hs
  | reset => cases h; exact creationStateMeetsTheInvariant

theorem serve_inv {e : Event} {s t : State} (h : serve e s = .next t) (hs : s.Inv) : t.Inv := by
  cases e with
  | operation o => exact operate_inv h hs
  | writePc v => cases h; exact hs
  | writeMem p v => cases h; exact ⟨hs.1, State.wf_writeByte s p v hs.2⟩

/-- Settles O16: an idle step keeps the state, and whatever is served keeps the invariant. -/
theorem everyStepKeepsTheInvariant : Obligations.EveryStepKeepsTheInvariant := by
  intro s t hs h
  obtain ⟨-, ⟨-, rfl⟩ | ⟨e, rest, -, hserve⟩⟩ := step_next_cases h
  · exact hs
  · exact serve_inv hserve hs

/-! The program counter (R21). -/

/-- The increment of BRK in naturals (R22). -/
theorem addr_add_one_eq (v : Addr) : v + 1#16 = BitVec.ofNat 16 ((v.toNat + 1) % 2 ^ 16) := by
  apply BitVec.eq_of_toNat_eq
  simp

theorem State.access_pc (s : State) (call : Accessor) : (s.access call).pc = s.pc := by
  obtain ⟨code, h⟩ | ⟨r, v, h⟩ | ⟨v, h⟩ := s.access_cases call <;> simp [h]

/-- Settles O19: each handler's shape says what it does to `pc`; accessors, faults and RESET each by their one rule. -/
theorem pcWrittenOnlyByControlTransfers : Obligations.PcWrittenOnlyByControlTransfers := by
  refine ⟨?_, ?_, ?_, ?_⟩
  · intro i s t h
    cases i with
    | bcc ctx | bcs ctx | beq ctx | bmi ctx | bne ctx | bpl ctx | bvc ctx | bvs ctx =>
      cases h; exact State.branchWhen_pc s _ _ ctx
    | brk ctx => cases h; exact addr_add_one_eq s.pc
    | asl ctx | lsr ctx => cases h; exact State.finishShift_pc s ctx _ _
    | _ => cases h; rfl
  · rintro s t call rest ⟨hfault, hinbox⟩ h
    cases (step_presented hfault hinbox).symm.trans h
    exact State.access_pc _ call
  · rintro s t cw code rest ⟨hfault, hinbox⟩ hdecode h
    have hserve := (step_presented hfault hinbox).symm.trans h
    cases (execute_of_decode_error hdecode _).symm.trans hserve
    rfl
  · rintro s t rest ⟨hfault, hinbox⟩ h
    cases (step_presented hfault hinbox).symm.trans h
    rfl

/-! Registers and flags (R24, R28): an instruction outside a column does not name its register or flag. -/

/-- Settles O20: whoever is not in a register's column has a frame without that register. -/
theorem registersWrittenOnlyByTheirWriters : Obligations.RegistersWrittenOnlyByTheirWriters := by
  intro i s t h
  refine ⟨?_, ?_, ?_, ?_⟩
  · cases i with
    | adc _ | sbc _ | lda _ | tya _ | and _ | ora _ | pla _ => trivial
    | asl ctx | lsr ctx =>
      exact or_iff_not_imp_left.mpr fun hm => exec_reg_eq h (by decide) (by simp [Instr.writtenRegs, hm])
    | _ => exact exec_reg_eq h (by decide) (by simp [Instr.writtenRegs])
  · cases i with
    | ldx _ => trivial
    | _ => exact exec_reg_eq h (by decide) (by simp [Instr.writtenRegs])
  · cases i with
    | ldy _ | tay _ => trivial
    | _ => exact exec_reg_eq h (by decide) (by simp [Instr.writtenRegs])
  · cases i with
    | jsr _ | brk _ | pla _ | plp _ => trivial
    | _ => exact exec_reg_eq h (by decide) (by simp [Instr.writtenRegs])

/-- Settles O21: whoever is not in a flag's column has a frame without that flag; the instructions that write no flag
leave the status register as one byte. -/
theorem flagsWrittenOnlyByTheirWriters : Obligations.FlagsWrittenOnlyByTheirWriters := by
  intro i s t h
  refine ⟨?_, ?_, ?_, ?_, ?_, ?_, ?_⟩
  · cases i with
    | adc _ | sbc _ | cmp _ | cpx _ | cpy _ | asl _ | lsr _ | clc _ | sec _ | plp _ => trivial
    | _ => exact exec_flag_eq h (by simp [Instr.writtenFlags])
  · cases i with
    | adc _ | sbc _ | cmp _ | cpx _ | cpy _ | asl _ | lsr _ | lda _ | ldx _ | ldy _ | and _ | ora _ | bit _ | pla _
    | plp _ => trivial
    | _ => exact ⟨exec_flag_eq h (by simp [Instr.writtenFlags]), exec_flag_eq h (by simp [Instr.writtenFlags])⟩
  · cases i with
    | cli _ | plp _ => trivial
    | _ => exact exec_flag_eq h (by simp [Instr.writtenFlags])
  · cases i with
    | cld _ | brk _ | plp _ => trivial
    | _ => exact exec_flag_eq h (by simp [Instr.writtenFlags])
  · cases i with
    | brk _ | plp _ => trivial
    | _ => exact exec_flag_eq h (by simp [Instr.writtenFlags])
  · cases i with
    | adc _ | sbc _ | bit _ | clv _ | plp _ => trivial
    | _ => exact exec_flag_eq h (by simp [Instr.writtenFlags])
  · cases i with
    | tay _ | tya _ | sta _ | stx _ | jmp _ | jsr _ | nop _ => cases h; rfl
    | bcc ctx | bcs ctx | beq ctx | bmi ctx | bne ctx | bpl ctx | bvc ctx | bvs ctx =>
      cases h; exact State.branchWhen_status s _ _ ctx
    | _ => trivial

end Sys2Proof.Machine
end

section
/-! SUPPORT. The canonical form of memory read as a function of the address; a store's byte, seen from the handler that
makes it; where the return address of JSR and BRK lands. -/
namespace Sys2Proof.Machine

open Sys2Proof

/-! A canonical list is determined by what it reads as (R35, log entry 6). -/

/-- In a list whose addresses rise, a listed byte is the one its address reads as. -/
theorem Memory.read_eq_of_mem {m : Memory} (h : m.Pairwise (fun c d => c.1 < d.1)) {c : Host.Cell} (hc : c ∈ m) :
    Memory.read m c.1 = c.2 := by
  induction m with
  | nil => simp at hc
  | cons d rest ih =>
    obtain ⟨hd, hrest⟩ := List.pairwise_cons.mp h
    rcases List.mem_cons.mp hc with rfl | hc
    · simp [Memory.read]
    · simpa [Memory.read, (hd c hc).ne] using ih hrest hc

/-- An address that does not read as the blank byte is listed, with the byte it reads as. -/
theorem Memory.mem_of_read_ne_blank {m : Memory} {p : Nat} (h : Memory.read m p ≠ Config.blankByte) :
    (p, Memory.read m p) ∈ m := by
  induction m with
  | nil => exact absurd rfl h
  | cons d rest ih =>
    by_cases hd : d.1 = p
    · simp [Memory.read, ← hd]
    · have hread : Memory.read (d :: rest) p = Memory.read rest p := by simp [Memory.read, hd]
      rw [hread] at h ⊢
      exact List.mem_cons_of_mem d (ih h)

/-- A canonical list holds exactly the bytes that are not blank, each at the address that reads as it. -/
theorem Memory.mem_iff_read {m : Memory} (h : Memory.wf m) (c : Host.Cell) :
    c ∈ m ↔ Memory.read m c.1 = c.2 ∧ c.2 ≠ Config.blankByte := by
  constructor
  · exact fun hc => ⟨Memory.read_eq_of_mem h.1 hc, (h.2 c hc).2⟩
  · rintro ⟨hread, hne⟩
    have hmem := Memory.mem_of_read_ne_blank (hread ▸ hne : Memory.read m c.1 ≠ Config.blankByte)
    rwa [hread] at hmem

/-- By `Memory.mem_iff_read` the two lists have the same members, and strictly rising lists with the same members are
equal. -/
theorem Memory.eq_of_read_eq {m n : Memory} (hm : Memory.wf m) (hn : Memory.wf n)
    (h : ∀ p, Memory.read m p = Memory.read n p) : m = n := by
  have hirrefl : Std.Irrefl (fun c d : Host.Cell => c.1 < d.1) := ⟨fun c => lt_irrefl c.1⟩
  have hantisymm : Std.Antisymm (fun c d : Host.Cell => c.1 < d.1) := ⟨fun c d hcd hdc => absurd hdc hcd.asymm⟩
  refine hm.1.eq_of_mem_iff hn.1 fun c => ?_
  rw [Memory.mem_iff_read hm, Memory.mem_iff_read hn, h]

/-! Bytes outside the row of R38. -/

theorem exec_readByte_eq {i : Instr} {s t : State} (h : exec i s = .next t) {p : Addr} (hp : p ∉ i.writtenBytes s) :
    t.readByte p = s.readByte p := by
  obtain ⟨-, -, -, hbytes, -⟩ := frame_of_exec h
  exact hbytes p hp

/-! The stack page (R113). -/

theorem stackAddr_toNat (v : Byte) : (stackAddr v).toNat = 0x100 + v.toNat := by
  have hv : v.toNat < 2 ^ 8 := v.isLt
  have hor : (stackAddr v).toNat = 2 ^ 8 * 1 ||| v.toNat := by
    simp [stackAddr, Config.stackPage, Nat.mod_eq_of_lt (show v.toNat < 65536 by omega)]
  rw [hor, ← Nat.two_pow_add_eq_or_of_lt hv]

/-- The slot of SP is just above the slot of SP - 1, except where SP wraps (R40). -/
theorem stackAddr_toNat_eq_succ {v : Byte} (h : v ≠ 0#8) : (stackAddr v).toNat = (stackAddr (v - 1#8)).toNat + 1 := by
  rw [stackAddr_toNat, stackAddr_toNat]
  bv_omega

theorem stackAddr_sub_ne {v k : Byte} (hk : k ≠ 0#8) : stackAddr v ≠ stackAddr (v - k) := by
  intro h
  have hv : v = v - k := stackAddr_injective h
  bv_omega

/-- The 16-bit number whose low byte stands at one address and whose high byte at another. -/
def State.readPair (s : State) (lo hi : Addr) : Nat := (s.readByte lo).toNat + 256 * (s.readByte hi).toNat

/-- The pushed program counter, read little-endian from its two slots, is the program counter (R40). -/
theorem State.readPair_pushPc (s : State) :
    s.pushPc.readPair (stackAddr (s.sp - 1#8)) (stackAddr s.sp) = s.pc.toNat := by
  have hne : stackAddr s.sp ≠ stackAddr (s.sp - 1#8) := stackAddr_sub_ne (by decide)
  simp only [State.readPair, State.readByte_pushPc, if_pos, if_neg hne, BitVec.extractLsb'_toNat]
  omega

/-- The next push lands below both slots, so it leaves the stacked program counter (R115). -/
theorem State.readPair_push_pushPc (s : State) (v : Byte) :
    (s.pushPc.push v).readPair (stackAddr (s.sp - 1#8)) (stackAddr s.sp) = s.pc.toNat := by
  have hlo : stackAddr (s.sp - 1#8) ≠ stackAddr (s.sp - 1#8 - 1#8) := stackAddr_sub_ne (by decide)
  have hhi : stackAddr s.sp ≠ stackAddr (s.sp - 2#8) := stackAddr_sub_ne (by decide)
  have hsp : s.sp - 1#8 - 1#8 = s.sp - 2#8 := by bv_omega
  rw [← s.readPair_pushPc]
  simp [State.readPair, hhi, hsp ▸ hlo]

end Sys2Proof.Machine
end

section
/-! PROOFS for 20_memory.md: memory is a plain array, who stores where, and the byte order of a stacked address. -/
namespace Sys2Proof.Machine

open Sys2Proof

/-- Settles O58: two canonical lists that read alike have the same members, in the same order. -/
theorem equalMemoriesAreEqualData : Obligations.EqualMemoriesAreEqualData :=
  fun _ _ hm hn h => Memory.eq_of_read_eq hm hn h

/-- Settles O59: both sides of each law are canonical and read alike at every address. -/
theorem memoryWritesBehaveAsAnArray : Obligations.MemoryWritesBehaveAsAnArray := by
  intro m p q v w hm hp hq
  refine ⟨?_, ?_, fun hpq => ?_⟩
  · refine Memory.eq_of_read_eq (Memory.wf_write hm hp) hm fun r => ?_
    by_cases hr : r = p <;> simp [Memory.read_write, hr]
  · refine Memory.eq_of_read_eq (Memory.wf_write (Memory.wf_write hm hp) hp) (Memory.wf_write hm hp) fun r => ?_
    simp only [Memory.read_write]
    split <;> rfl
  · refine Memory.eq_of_read_eq (Memory.wf_write (Memory.wf_write hm hp) hq)
      (Memory.wf_write (Memory.wf_write hm hq) hp) fun r => ?_
    simp only [Memory.read_write]
    by_cases hr : r = q
    · simp [hr, hpq.symm]
    · simp [hr]

/-- Settles O22: an address an instruction does not list is outside its frame. -/
theorem memoryWrittenOnlyAtTheListedAddresses : Obligations.MemoryWrittenOnlyAtTheListedAddresses := by
  intro i s t h p
  cases i with
  | sta ctx | stx ctx => exact fun hp => exec_readByte_eq h (by simpa [Instr.writtenBytes, storeAddr] using hp)
  | asl ctx | lsr ctx =>
    intro hp
    refine exec_readByte_eq h ?_
    by_cases hm : ctx.mode = .accumulator
    · simp [Instr.writtenBytes, hm]
    · simpa [Instr.writtenBytes, hm, storeAddr] using hp
  | jsr _ | brk _ => exact fun hp => exec_readByte_eq h hp
  | _ => exact exec_readByte_eq h (by simp [Instr.writtenBytes])

/-- Settles O36: both push the program counter they leave; the third byte BRK pushes lies in neither slot. -/
theorem stackedReturnAddressIsLittleEndian : Obligations.StackedReturnAddressIsLittleEndian := by
  intro ctx s
  exact ⟨stackAddr_toNat_eq_succ, ⟨_, rfl, (s.setPc (s.pc - 1#16)).readPair_pushPc⟩,
    ⟨_, rfl, (s.setPc (s.pc + 1#16)).readPair_push_pushPc _⟩⟩

end Sys2Proof.Machine
end

section
/-! SUPPORT. The fields and the checks of R54 of a word taken as a number, the decoder outcome by outcome, and the
encoder as a number with the tables of the codes read by row. -/
namespace Sys2Proof

open Sys2Proof.Claims

/-! The fields of a word as numbers (R48). -/

theorem Fields.toNat_h_ofWord (cw : CtrlWord) : (Fields.ofWord cw).h.toNat = cw.toNat / 2 ^ 32 := by
  simp only [Fields.ofWord, BitVec.extractLsb'_toNat, Nat.shiftRight_eq_div_pow]
  omega

theorem Fields.toNat_m_ofWord (cw : CtrlWord) : (Fields.ofWord cw).m.toNat = cw.toNat / 2 ^ 28 % 16 := by
  simp only [Fields.ofWord, BitVec.extractLsb'_toNat, Nat.shiftRight_eq_div_pow]

theorem Fields.toNat_rsv_ofWord (cw : CtrlWord) : (Fields.ofWord cw).rsv.toNat = cw.toNat / 2 ^ 24 % 16 := by
  simp only [Fields.ofWord, BitVec.extractLsb'_toNat, Nat.shiftRight_eq_div_pow]

theorem Fields.toNat_operand_ofWord (cw : CtrlWord) :
    (Fields.ofWord cw).operand.toNat = cw.toNat / 2 ^ 16 % 256 := by
  simp only [Fields.ofWord, BitVec.extractLsb'_toNat, Nat.shiftRight_eq_div_pow]

theorem Fields.toNat_ea_ofWord (cw : CtrlWord) : (Fields.ofWord cw).ea.toNat = cw.toNat % 2 ^ 16 := by
  simp only [Fields.ofWord, BitVec.extractLsb'_toNat, Nat.shiftRight_zero]

/-! The three checks as numbers (R54). -/

theorem Fields.reservedClear_ofWord_iff (cw : CtrlWord) :
    (Fields.ofWord cw).reservedClear = true ↔ cw.toNat / 2 ^ 24 % 16 = 0 := by
  rw [Fields.reservedClear, beq_iff_eq, ← BitVec.toNat_inj, Fields.toNat_rsv_ofWord]
  rfl

theorem Fields.handlerAssigned_ofWord_iff (cw : CtrlWord) :
    (Fields.ofWord cw).handlerAssigned = true ↔ 1 ≤ cw.toNat / 2 ^ 32 ∧ cw.toNat / 2 ^ 32 ≤ 0x24 := by
  rw [Fields.handlerAssigned, Bool.and_eq_true, decide_eq_true_iff, decide_eq_true_iff, BitVec.le_def, BitVec.le_def,
    Fields.toNat_h_ofWord]
  rfl

theorem Mode.ofCode_ofWord_eq_none_iff (cw : CtrlWord) :
    Mode.ofCode (Fields.ofWord cw).m = none ↔ 12 < cw.toNat / 2 ^ 28 % 16 := by
  rw [Mode.ofCode_eq_none_iff, BitVec.lt_def, Fields.toNat_m_ofWord]
  rfl

/-! The decoder, outcome by outcome. -/

/-- The fields of a decoded word are those of the instruction read from it, and no other word's are (R48, R54). -/
theorem decode_eq_ok_iff {cw : CtrlWord} {i : Instr} : decode cw = .ok i ↔ Fields.ofWord cw = i.fields := by
  constructor
  · intro h
    simp only [decode] at h
    split at h
    · cases h
    split at h
    · cases h
    split at h
    · cases h
    split at h
    · cases h
    next hclear _ _ mode hmode _ _ hhandler =>
    cases h
    obtain ⟨hcode, hctx⟩ := Instr.handlerCode_of_ofHandler hhandler
    have hrsv : (Fields.ofWord cw).rsv = 0#4 := by simpa [Fields.reservedClear] using hclear
    rw [Instr.fields, hctx, hcode, Mode.code_of_ofCode hmode, ← hrsv]
  · intro h
    obtain ⟨hlow, hhigh⟩ := i.handlerCode_assigned
    have hhandler : Instr.ofHandler i.handlerCode ⟨i.ctx.operand, i.ctx.ea, i.ctx.mode⟩ = some i :=
      i.ofHandler_handlerCode
    simp [decode, h, Instr.fields, Fields.reservedClear, Fields.handlerAssigned, hlow, hhigh, hhandler]

theorem decode_of_reserved {cw : CtrlWord} (hrsv : cw.toNat / 2 ^ 24 % 16 ≠ 0) :
    decode cw = .error .reservedField := by
  rw [ne_eq, ← Fields.reservedClear_ofWord_iff] at hrsv
  simp [decode, hrsv]

theorem decode_of_unassigned {cw : CtrlWord} (hrsv : cw.toNat / 2 ^ 24 % 16 = 0)
    (hh : ¬ (1 ≤ cw.toNat / 2 ^ 32 ∧ cw.toNat / 2 ^ 32 ≤ 0x24)) : decode cw = .error .unknownHandler := by
  rw [← Fields.reservedClear_ofWord_iff] at hrsv
  rw [← Fields.handlerAssigned_ofWord_iff] at hh
  simp [decode, hrsv, hh]

theorem decode_of_illegal_mode {cw : CtrlWord} (hrsv : cw.toNat / 2 ^ 24 % 16 = 0)
    (hh : 1 ≤ cw.toNat / 2 ^ 32 ∧ cw.toNat / 2 ^ 32 ≤ 0x24) (hm : 12 < cw.toNat / 2 ^ 28 % 16) :
    decode cw = .error .illegalMode := by
  rw [← Fields.reservedClear_ofWord_iff] at hrsv
  rw [← Fields.handlerAssigned_ofWord_iff] at hh
  rw [← Mode.ofCode_ofWord_eq_none_iff] at hm
  simp [decode, hrsv, hh, hm]

/-- A word that passes the three checks has the fields of some instruction (R54). -/
theorem exists_decode_eq_ok {cw : CtrlWord} (hrsv : cw.toNat / 2 ^ 24 % 16 = 0)
    (hh : 1 ≤ cw.toNat / 2 ^ 32 ∧ cw.toNat / 2 ^ 32 ≤ 0x24) (hm : cw.toNat / 2 ^ 28 % 16 ≤ 12) :
    ∃ i, decode cw = .ok i := by
  obtain ⟨mode, hmode⟩ : ∃ mode, Mode.ofCode (Fields.ofWord cw).m = some mode := by
    rw [← Option.ne_none_iff_exists', ne_eq, Mode.ofCode_ofWord_eq_none_iff]
    omega
  obtain ⟨i, hi⟩ :
      ∃ i, Instr.ofHandler (Fields.ofWord cw).h ⟨(Fields.ofWord cw).operand, (Fields.ofWord cw).ea, mode⟩ = some i := by
    rw [← Option.ne_none_iff_exists', ne_eq, Instr.ofHandler_eq_none_iff, Fields.toNat_h_ofWord]
    omega
  rw [← Fields.reservedClear_ofWord_iff] at hrsv
  rw [← Fields.handlerAssigned_ofWord_iff] at hh
  exact ⟨i, by simp [decode, hrsv, hh, hmode, hi]⟩

/-- An instruction read from a word of the opcode table is the one the decoder reads from that control word. -/
theorem decode_of_decodeTableWord {nbits w : Nat} {i : Instr} (h : decodeTableWord nbits w = some i) :
    decode (tableWord nbits w) = .ok i := by
  unfold decodeTableWord at h
  split at h
  · split at h
    · next hdecode => cases h; exact hdecode
    · cases h
  · cases h

/-! The encoder and the tables of R50 and R51. -/

/-- The control word of an instruction as a number (R48). -/
theorem encode_eq_ofNat (i : Instr) :
    encode i = BitVec.ofNat 40 (i.handlerCode.toNat * 2 ^ 32 + i.ctx.mode.code.toNat * 2 ^ 28 +
      i.ctx.operand.toNat * 2 ^ 16 + i.ctx.ea.toNat) := by
  calc encode i = BitVec.ofNat 40 i.fields.toWord.toNat := by rw [BitVec.ofNat_toNat, BitVec.setWidth_eq, encode]
    _ = _ := by simp [Fields.toNat_toWord, Instr.fields]

theorem handlerTable_row {h : Nat × (Ctx → Instr)} (hh : h ∈ handlerTable) (ctx : Ctx) :
    (h.2 ctx).handlerCode.toNat = h.1 ∧ (h.2 ctx).ctx = ctx := by
  revert h
  simp [handlerTable, Instr.handlerCode, Instr.ctx]

theorem modeTable_row : ∀ m ∈ modeTable, m.2.code.toNat = m.1 := by decide

end Sys2Proof
end

section
/-! PROOFS for 30_encoding.md: decoder and encoder agree, the checks of EXECUTE, and which handler reads which field. -/
namespace Sys2Proof.Machine

open Sys2Proof Sys2Proof.Claims

/-- Settles O7: the fields of an instruction's control word are its own, and those select it. -/
theorem decodeOfEncodeIsTheInstruction : Obligations.DecodeOfEncodeIsTheInstruction :=
  fun i => decode_eq_ok_iff.mpr (Fields.ofWord_encode i)

/-- Settles O8: a word is put together from its fields, and those are the fields of what it decodes to. -/
theorem encodeOfDecodeIsTheWord : Obligations.EncodeOfDecodeIsTheWord := by
  intro cw i h
  calc encode i = (Fields.ofWord cw).toWord := by rw [decode_eq_ok_iff.mp h, encode]
    _ = cw := Fields.toWord_ofWord cw

/-- Settles O9: the word of R48 for a row of R50 and a row of R51 is the control word of that row's instruction. -/
theorem controlWordsSelectTheirHandlers : Obligations.ControlWordsSelectTheirHandlers := by
  intro h hh m hm operand ea
  obtain ⟨hcode, hctx⟩ := handlerTable_row hh ⟨operand, ea, m.2⟩
  have hword := encode_eq_ofNat (h.2 ⟨operand, ea, m.2⟩)
  rw [hcode, hctx, modeTable_row m hm] at hword
  rw [← hword]
  exact decodeOfEncodeIsTheInstruction _

/-- Settles O11: a check that fails names the fault; a word that passes all three has the fields of the instruction that
runs. -/
theorem controlWordChecksInOrder : Obligations.ControlWordChecksInOrder := by
  rintro s cw rest ⟨hfault, hinbox⟩
  have hstep : step s = execute cw { s with inbox := rest } := step_presented hfault hinbox
  refine ⟨fun hrsv => ?_, fun hrsv hh => ?_, fun hrsv hlow hhigh hm => ?_, fun hrsv hlow hhigh hm => ?_⟩
  · exact hstep.trans (execute_of_decode_error (decode_of_reserved hrsv) _)
  · exact hstep.trans (execute_of_decode_error (decode_of_unassigned hrsv (by omega)) _)
  · exact hstep.trans (execute_of_decode_error (decode_of_illegal_mode hrsv ⟨hlow, hhigh⟩ hm) _)
  · obtain ⟨i, hi⟩ := exists_decode_eq_ok hrsv ⟨hlow, hhigh⟩ hm
    have hfields : i.fields = Fields.ofWord cw := (decode_eq_ok_iff.mp hi).symm
    refine ⟨i, hstep.trans (execute_of_decode_ok hi _), ?_, ?_, ?_, ?_⟩
    · rw [← Fields.toNat_h_ofWord, ← hfields, Instr.fields]
    · rw [← Fields.toNat_operand_ofWord, ← hfields, Instr.fields]
    · rw [← Fields.toNat_ea_ofWord, ← hfields, Instr.fields]
    · rw [← Fields.toNat_m_ofWord, ← hfields, Instr.fields]

/-! A shift reads the mode only to choose between A and memory, and the effective address only to reach memory (R53). -/

theorem State.finishShift_congr_memory (s : State) {c d : Ctx} (out : Bool) (r : Byte) (hc : c.mode ≠ .accumulator)
    (hd : d.mode ≠ .accumulator) (hea : c.ea = d.ea) : s.finishShift c out r = s.finishShift d out r := by
  simp [State.finishShift, State.writeShifted, hc, hd, hea]

theorem State.finishShift_congr_accumulator (s : State) {c d : Ctx} (out : Bool) (r : Byte)
    (hc : c.mode = .accumulator) (hd : d.mode = .accumulator) : s.finishShift c out r = s.finishShift d out r := by
  simp [State.finishShift, State.writeShifted, hc, hd]

/-- Settles O23: a handler that does not name a field is the same function without it; a shift asks of the mode only
whether it is Accumulator, and in that mode stores to no address. -/
theorem handlersIgnoreUnnamedContextFields : Obligations.HandlersIgnoreUnnamedContextFields := by
  intro i s operand ea mode
  refine ⟨?_, ?_, ?_⟩
  · cases i with
    | asl ctx | lsr ctx =>
      intro hctx hmode
      exact congrArg Host.Outcome.next (s.finishShift_congr_memory _ _ hmode hctx rfl)
    | _ => rfl
  · cases i with
    | adc _ | sbc _ | and _ | ora _ | bit _ | lda _ | ldx _ | ldy _ | asl _ | lsr _ | jsr _ => trivial
    | _ => rfl
  · cases i with
    | cmp _ | cpx _ | cpy _ | bcc _ | bcs _ | beq _ | bmi _ | bne _ | bpl _ | bvc _ | bvs _ | jmp _ | sta _
    | stx _ => trivial
    | asl ctx | lsr ctx =>
      intro hctx
      exact congrArg Host.Outcome.next (s.finishShift_congr_accumulator _ _ hctx hctx)
    | _ => rfl

/-- Settles O4: the table word is presented first, and what is presented behind it is the state's own. -/
theorem presentedTableWordRunsNext : Obligations.PresentedTableWordRunsNext :=
  fun s _ _ i hfault h =>
    stepRunsTheDecodedInstruction _ _ s.inbox i ⟨hfault, rfl⟩ (decode_of_decodeTableWord h)

/-- Settles O10: each sample word has the fields of its instruction. -/
theorem sampleControlWordsDecode : Obligations.SampleControlWordsDecode :=
  ⟨decode_eq_ok_iff.mpr rfl, decode_eq_ok_iff.mpr rfl, decode_eq_ok_iff.mpr rfl, decode_eq_ok_iff.mpr rfl,
    decode_eq_ok_iff.mpr rfl⟩

end Sys2Proof.Machine
end

section
/-! SUPPORT. The accessors outcome by outcome, on arguments taken as numbers: which register an argument names, the
answer of each call by its checks in order, and what a register reads after a write. -/
namespace Sys2Proof

open Sys2Proof.Machine

/-! The arguments and their checks as numbers (R57). -/

theorem registerLegal_iff (r : Byte) : registerLegal r = true ↔ r.toNat ≤ 4 := by
  simp [registerLegal, BitVec.le_def]

theorem indexLegal_iff (i : Byte) : indexLegal i = true ↔ i.toNat ≤ 7 := by
  simp [indexLegal, BitVec.le_def]

theorem bitLegal_iff (v : Byte) : bitLegal v = true ↔ v.toNat ≤ 1 := by
  simp [bitLegal, BitVec.le_def]

theorem Accessor.wellFormed_setRegBit_iff (r i v : Byte) :
    (Accessor.setRegBit r i v).wellFormed = true ↔
      r.toNat ≤ 4 ∧ i.toNat ≤ 7 ∧ ¬(r.toNat = 0 ∧ i.toNat = 5) ∧ v.toNat ≤ 1 := by
  simp [wellFormed, registerLegal_iff, indexLegal_iff, bitLegal_iff, ← BitVec.toNat_inj, and_assoc,
    imp_iff_not_or]

theorem Accessor.wellFormed_getRegBit_iff (r i : Byte) :
    (Accessor.getRegBit r i).wellFormed = true ↔ r.toNat ≤ 4 ∧ i.toNat ≤ 7 := by
  simp [wellFormed, registerLegal_iff, indexLegal_iff]

theorem Accessor.wellFormed_setFlag_iff (f v : Byte) :
    (Accessor.setFlag f v).wellFormed = true ↔ f.toNat ≤ 7 ∧ f.toNat ≠ 5 ∧ v.toNat ≤ 1 := by
  simp [wellFormed, indexLegal_iff, bitLegal_iff, ← BitVec.toNat_inj, and_assoc]

theorem Accessor.wellFormed_getFlag_iff (f : Byte) :
    (Accessor.getFlag f).wellFormed = true ↔ f.toNat ≤ 7 ∧ f.toNat ≠ 5 := by
  simp [wellFormed, indexLegal_iff, ← BitVec.toNat_inj]

/-- The register argument of the four calls that have one. -/
def Accessor.register : Accessor → Option Byte
  | .setRegBit r _ _ | .getRegBit r _ | .setRegByte r _ | .getRegByte r => some r
  | .setFlag _ _ | .getFlag _ => none

/-- A legal call that names a register names it legally. -/
theorem Accessor.register_le_of_wellFormed {call : Accessor} (h : call.wellFormed = true) {r : Byte}
    (hr : call.register = some r) : r.toNat ≤ 4 := by
  cases call with
  | setRegBit r i v => cases hr; exact ((wellFormed_setRegBit_iff r i v).mp h).1
  | getRegBit r i => cases hr; exact ((wellFormed_getRegBit_iff r i).mp h).1
  | setRegByte r _ | getRegByte r => cases hr; exact (registerLegal_iff r).mp h
  | setFlag _ _ | getFlag _ => cases hr

end Sys2Proof

namespace Sys2Proof.Machine

open Sys2Proof Sys2Proof.Claims

/-! Registers by their index (R23). -/

theorem Reg.ofIndex_of_index {q : Reg} {r : Byte} (h : q.index = r.toNat) : Reg.ofIndex r = some q :=
  (Reg.ofIndex_eq_some_iff r q).mpr h.symm

theorem Reg.ofIndex_of_illegal {r : Byte} (h : 4 < r.toNat) : Reg.ofIndex r = none :=
  (Reg.ofIndex_eq_none_iff r).mpr (BitVec.lt_def.mpr h)

/-- Every legal register argument names a register. -/
theorem Reg.exists_index_eq {r : Byte} (h : r.toNat ≤ 4) : ∃ q : Reg, q.index = r.toNat := by
  cases hq : Reg.ofIndex r with
  | none => exact absurd (BitVec.lt_def.mp ((Reg.ofIndex_eq_none_iff r).mp hq)) h.not_gt
  | some q => exact ⟨q, ((Reg.ofIndex_eq_some_iff r q).mp hq).symm⟩

theorem Reg.index_eq_index_iff {p q : Reg} : p.index = q.index ↔ p = q := by
  cases p <;> cases q <;> decide

theorem Reg.eq_status_iff {q : Reg} : q = .status ↔ q.index = 0 :=
  (Reg.index_eq_index_iff (q := .status)).symm

/-! The call that is presented, and its answer by the checks of R58 in their order. -/

/-- A presented accessor call is one step, to the state the call makes. -/
theorem step_access {s t : State} {call : Accessor} {rest : List Event}
    (h : Presents s (.operation (.access call)) rest) (ht : State.access { s with inbox := rest } call = t) :
    step s = .next t :=
  (step_presented h.1 h.2).trans (congrArg _ ht)

/-- The register check comes first in every call that names a register. -/
theorem State.access_of_illegal_register (s : State) {call : Accessor} {r : Byte} (hcall : call.register = some r)
    (hr : 4 < r.toNat) : s.access call = s.raiseFault .registerName := by
  have hnone := Reg.ofIndex_of_illegal hr
  cases call with
  | setRegBit _ _ _ => cases hcall; simp [State.access, accessSetRegBit, hnone]
  | getRegBit _ _ => cases hcall; simp [State.access, accessGetRegBit, hnone]
  | setRegByte _ _ => cases hcall; simp [State.access, accessSetRegByte, hnone]
  | getRegByte _ => cases hcall; simp [State.access, accessGetRegByte, hnone]
  | setFlag _ _ | getFlag _ => cases hcall

theorem State.access_setRegBit (s : State) {q : Reg} {r : Byte} (hq : q.index = r.toNat) (i v : Byte) :
    s.access (.setRegBit r i v) =
      if 7 < i.toNat then s.raiseFault .bitIndex
      else if r.toNat = 0 ∧ i.toNat = 5 then s.raiseFault .reservedBit
      else if 1 < v.toNat then s.raiseFault .bitValue
      else s.setRegBit q i.toNat (decide (v.toNat = 1)) := by
  simp [State.access, accessSetRegBit, Reg.ofIndex_of_index hq, Reg.eq_status_iff, hq, BitVec.lt_def,
    ← BitVec.toNat_inj, beq_eq_decide]

theorem State.access_setRegBit_of_legal (s : State) {q : Reg} {r i v : Byte} (hq : q.index = r.toNat)
    (hi : i.toNat ≤ 7) (hres : ¬(r.toNat = 0 ∧ i.toNat = 5)) (hv : v.toNat ≤ 1) :
    s.access (.setRegBit r i v) = s.setRegBit q i.toNat (decide (v.toNat = 1)) := by
  rw [s.access_setRegBit hq, if_neg hi.not_gt, if_neg hres, if_neg hv.not_gt]

theorem State.access_getRegBit (s : State) {q : Reg} {r : Byte} (hq : q.index = r.toNat) (i : Byte) :
    s.access (.getRegBit r i) =
      if 7 < i.toNat then s.raiseFault .bitIndex else s.returnValue (bitByte (s.regBit q i.toNat)) := by
  simp [State.access, accessGetRegBit, Reg.ofIndex_of_index hq, BitVec.lt_def]

theorem State.access_setFlag (s : State) (f v : Byte) :
    s.access (.setFlag f v) =
      if 7 < f.toNat then s.raiseFault .bitIndex
      else if f.toNat = 5 then s.raiseFault .reservedBit
      else if 1 < v.toNat then s.raiseFault .bitValue
      else s.setRegBit .status f.toNat (decide (v.toNat = 1)) := by
  simp [State.access, accessSetFlag, BitVec.lt_def, ← BitVec.toNat_inj, beq_eq_decide]

theorem State.access_getFlag (s : State) (f : Byte) :
    s.access (.getFlag f) =
      if 7 < f.toNat then s.raiseFault .bitIndex
      else if f.toNat = 5 then s.raiseFault .reservedBit
      else s.returnValue (bitByte (s.regBit .status f.toNat)) := by
  simp [State.access, accessGetFlag, BitVec.lt_def, ← BitVec.toNat_inj]

theorem State.access_setRegByte (s : State) {q : Reg} {r : Byte} (hq : q.index = r.toNat) (b : Byte) :
    s.access (.setRegByte r b) = s.setReg q b := by
  simp [State.access, accessSetRegByte, Reg.ofIndex_of_index hq]

theorem State.access_getRegByte (s : State) {q : Reg} {r : Byte} (hq : q.index = r.toNat) :
    s.access (.getRegByte r) = s.returnValue (s.reg q) := by
  simp [State.access, accessGetRegByte, Reg.ofIndex_of_index hq]

/-- A fault is recorded exactly when a check fails: the register's first, then those of each call. -/
theorem State.access_fault_eq_none_iff {s : State} (hs : s.fault = none) (call : Accessor) :
    (s.access call).fault = none ↔ call.wellFormed = true := by
  by_cases hillegal : ∃ r, call.register = some r ∧ 4 < r.toNat
  · obtain ⟨r, hcall, hr⟩ := hillegal
    have hnot : ¬call.wellFormed = true := fun hw => (call.register_le_of_wellFormed hw hcall).not_gt hr
    simp [s.access_of_illegal_register hcall hr, hnot]
  · have hlegal : ∀ r, call.register = some r → r.toNat ≤ 4 ∧ ∃ q : Reg, q.index = r.toNat := fun r hcall =>
      have hr : r.toNat ≤ 4 := Nat.le_of_not_lt fun hr => hillegal ⟨r, hcall, hr⟩
      ⟨hr, Reg.exists_index_eq hr⟩
    cases call with
    | setRegBit r i v =>
      obtain ⟨hr, q, hq⟩ := hlegal r rfl
      rw [s.access_setRegBit hq, Accessor.wellFormed_setRegBit_iff]
      split_ifs <;> simp [State.setRegBit, hs] <;> omega
    | getRegBit r i =>
      obtain ⟨hr, q, hq⟩ := hlegal r rfl
      rw [s.access_getRegBit hq, Accessor.wellFormed_getRegBit_iff]
      split_ifs <;> simp [hs] <;> omega
    | setFlag f v =>
      rw [s.access_setFlag, Accessor.wellFormed_setFlag_iff]
      split_ifs <;> simp [State.setRegBit, hs] <;> omega
    | getFlag f =>
      rw [s.access_getFlag, Accessor.wellFormed_getFlag_iff]
      split_ifs <;> simp [hs] <;> omega
    | setRegByte r b =>
      obtain ⟨hr, q, hq⟩ := hlegal r rfl
      simpa [s.access_setRegByte hq, Accessor.wellFormed, hs] using (registerLegal_iff r).mpr hr
    | getRegByte r =>
      obtain ⟨hr, q, hq⟩ := hlegal r rfl
      simpa [s.access_getRegByte hq, Accessor.wellFormed, hs] using (registerLegal_iff r).mpr hr

/-! What a register reads after a write of a byte or of a bit. -/

theorem State.reg_setReg (s : State) (q : Reg) (v : Byte) :
    (s.setReg q v).reg q = if q = .status then v ||| Config.statusFixed else v := by
  cases q <;> rfl

/-- The hardwired bit of the status register does not show in a write of another bit. -/
theorem State.getLsbD_setReg (s : State) (q : Reg) (v : Byte) {n : Nat} (h : ¬(q = .status ∧ n = 5)) :
    ((s.setReg q v).reg q).getLsbD n = v.getLsbD n := by
  rw [State.reg_setReg]
  split
  next hq =>
    have hn : n ≠ 5 := fun hn => h ⟨hq, hn⟩
    rw [getLsbD_or_statusFixed, decide_eq_false hn, Bool.or_false]
  next => rfl

theorem State.regBit_setRegBit_same (s : State) {q : Reg} {i : Nat} (hi : i < 8) (h : ¬(q = .status ∧ i = 5))
    (v : Bool) : (s.setRegBit q i v).regBit q i = v := by
  unfold State.setRegBit State.regBit
  rw [State.getLsbD_setReg _ _ _ h, getLsbD_putBit _ _ _ _ hi, if_pos rfl]

/-- A bit write gives that bit its value and keeps every other bit of every register (R59); the hardwired bit, which
every status write sets, was set before. -/
theorem State.getLsbD_setRegBit (s : State) (hb : s.bit5Set) (p : Reg) {i : Nat} (hi : i < 8)
    (h : ¬(p = .status ∧ i = 5)) (v : Bool) (q : Reg) (n : Nat) :
    ((s.setRegBit p i v).reg q).getLsbD n = if q = p ∧ n = i then v else (s.reg q).getLsbD n := by
  by_cases hq : q = p
  · subst hq
    by_cases hn : q = .status ∧ n = 5
    · obtain ⟨rfl, rfl⟩ := hn
      have hi5 : ¬5 = i := fun h5 => h ⟨rfl, h5.symm⟩
      simp only [hi5, and_false, if_false]
      exact (State.bit5Set_setReg_status s _).trans hb.symm
    · simp [State.setRegBit, State.getLsbD_setReg _ _ _ hn, getLsbD_putBit _ _ _ _ hi]
  · simp [State.setRegBit, State.reg_setReg_other _ _ _ _ hq, hq]

/-- A legal bit value is the byte its bit is returned as (R60). -/
theorem bitByte_of_legal {v : Byte} (h : v.toNat ≤ 1) : bitByte (decide (v.toNat = 1)) = v := by
  revert v; decide

/-! Two calls in a row, as a run. -/

/-- A call that writes one register, and then one more call, are two steps. -/
theorem run_setReg_access {s : State} {set get : Accessor} {q : Reg} {w : Byte} (hfault : s.fault = none)
    (hinbox : s.inbox = [.operation (.access set), .operation (.access get)])
    (hset : State.access { s with inbox := [.operation (.access get)] } set =
      State.setReg { s with inbox := [.operation (.access get)] } q w) :
    Host.Core.run core 2 s = .next (State.access { s.setReg q w with inbox := [] } get) := by
  have hfirst : core.step s = .next (State.setReg { s with inbox := [.operation (.access get)] } q w) :=
    step_access ⟨hfault, hinbox⟩ hset
  have hsecond : core.step (State.setReg { s with inbox := [.operation (.access get)] } q w) =
      .next (State.access { s.setReg q w with inbox := [] } get) := by
    refine step_access (call := get) (rest := []) ⟨by simpa using hfault, by simp⟩ ?_
    cases q <;> rfl
  simp [Host.Core.run, hfirst, hsecond]

end Sys2Proof.Machine
end

section
/-! PROOFS for 40_register_file.md: the six accessors, their faults and their round trips, and R66. -/
namespace Sys2Proof.Machine

open Sys2Proof Sys2Proof.Claims

/-- Settles O18: every handler completes inside its frame, and no frame names one of the three fields. -/
theorem handlersAlwaysComplete : Obligations.HandlersAlwaysComplete := by
  intro i s
  obtain ⟨t, ht, -, -, -, -, hrest⟩ := exec_frame i s
  exact ⟨t, ht, hrest⟩

/-- Settles O50: the answer of setRegBit at each check, then what one bit write does. -/
theorem setRegBitMutatesOneBit : Obligations.SetRegBitMutatesOneBit := by
  intro s r i v rest hs hb u
  refine ⟨fun hr => ?_, fun hr hi => ?_, fun hr hi => ?_, fun hr hi hres hv => ?_, fun hr hi hres hv => ?_⟩
  · exact step_access hs (u.access_of_illegal_register rfl hr)
  · obtain ⟨q, hq⟩ := Reg.exists_index_eq hr
    exact step_access hs ((u.access_setRegBit hq i v).trans (if_pos hi))
  · obtain ⟨q, hq⟩ := Reg.exists_index_eq (hr.trans_le (Nat.zero_le 4))
    exact step_access hs ((u.access_setRegBit hq i v).trans ((if_neg (by omega)).trans (if_pos ⟨hr, hi⟩)))
  · obtain ⟨q, hq⟩ := Reg.exists_index_eq hr
    exact step_access hs
      ((u.access_setRegBit hq i v).trans ((if_neg hi.not_gt).trans ((if_neg hres).trans (if_pos hv))))
  · obtain ⟨q, hq⟩ := Reg.exists_index_eq hr
    refine ⟨_, step_access hs (u.access_setRegBit_of_legal hq hi hres hv), fun p n _ => ?_, ?_⟩
    · simp only [← hq, Reg.index_eq_index_iff]
      exact u.getLsbD_setRegBit hb q (Nat.lt_succ_of_le hi) (by rwa [Reg.eq_status_iff, hq]) _ p n
    · simpa [State.setRegBit, u] using hs.1

/-- Settles O51: the answer of getRegBit at each check. -/
theorem getRegBitReturnsTheBit : Obligations.GetRegBitReturnsTheBit := by
  intro s r i rest hs u
  refine ⟨fun hr => ?_, fun hr hi => ?_, fun q hq hi => ?_⟩
  · exact step_access hs (u.access_of_illegal_register rfl hr)
  · obtain ⟨q, hq⟩ := Reg.exists_index_eq hr
    exact step_access hs ((u.access_getRegBit hq i).trans (if_pos hi))
  · exact step_access hs ((u.access_getRegBit hq i).trans (if_neg hi.not_gt))

/-- Settles O52: the answer of setFlag at each check, then one bit write into the status register. -/
theorem setFlagWritesOneFlag : Obligations.SetFlagWritesOneFlag := by
  intro s f v rest hs hb u
  have hcall := u.access_setFlag f v
  refine ⟨fun hf => ?_, fun hf => ?_, fun hf hres hv => ?_, fun hf hres hv => ?_⟩
  · exact step_access hs (hcall.trans (if_pos hf))
  · exact step_access hs (hcall.trans ((if_neg (by omega)).trans (if_pos hf)))
  · exact step_access hs (hcall.trans ((if_neg hf.not_gt).trans ((if_neg hres).trans (if_pos hv))))
  · rw [if_neg hf.not_gt, if_neg hres, if_neg hv.not_gt] at hcall
    refine ⟨_, step_access hs hcall, fun n _ => ?_, rfl⟩
    have hbit := u.getLsbD_setRegBit hb .status (Nat.lt_succ_of_le hf) (fun h => hres h.2) (decide (v.toNat = 1))
    simpa [State.reg, u] using hbit .status n

/-- Settles O53: the answer of getFlag at each check. -/
theorem getFlagReturnsTheFlag : Obligations.GetFlagReturnsTheFlag := by
  intro s f rest hs u
  have hcall := u.access_getFlag f
  exact ⟨fun hf => step_access hs (hcall.trans (if_pos hf)),
    fun hf => step_access hs (hcall.trans ((if_neg (by omega)).trans (if_pos hf))),
    fun hf hres => step_access hs (hcall.trans ((if_neg hf.not_gt).trans (if_neg hres)))⟩

/-- Settles O54: the call is the one write of a register, which sets bit 5 of a status byte. -/
theorem setRegByteWritesTheRegister : Obligations.SetRegByteWritesTheRegister := by
  intro s r b rest hs u
  refine ⟨fun hr => step_access hs (u.access_of_illegal_register rfl hr), fun q hq => ?_⟩
  refine ⟨_, step_access hs (u.access_setRegByte hq b), u.reg_setReg q b,
    fun p hp => u.reg_setReg_other q p b hp, ?_⟩
  simpa [u] using hs.1

/-- Settles O55: the answer of getRegByte. -/
theorem getRegByteReturnsTheRegister : Obligations.GetRegByteReturnsTheRegister := by
  intro s r rest hs u
  exact ⟨fun hr => step_access hs (u.access_of_illegal_register rfl hr),
    fun q hq => step_access hs (u.access_getRegByte hq)⟩

/-- Settles O56: the set accessor writes one register, and the get accessor returns what it now reads. -/
theorem accessorRoundTrips : Obligations.AccessorRoundTrips := by
  constructor
  · intro s r i v hfault hr hi hres hv hinbox
    obtain ⟨q, hq⟩ := Reg.exists_index_eq hr
    have hbit : (s.setRegBit q i.toNat (decide (v.toNat = 1))).regBit q i.toNat = decide (v.toNat = 1) :=
      s.regBit_setRegBit_same (Nat.lt_succ_of_le hi) (by rwa [Reg.eq_status_iff, hq]) _
    refine ⟨_, run_setReg_access hfault hinbox (State.access_setRegBit_of_legal _ hq hi hres hv), ?_⟩
    rw [State.access_getRegBit _ hq, if_neg hi.not_gt, State.returnValue_portOut]
    exact congrArg some ((congrArg bitByte hbit).trans (bitByte_of_legal hv))
  · intro s r b hfault hr hinbox
    obtain ⟨q, hq⟩ := Reg.exists_index_eq hr
    refine ⟨_, run_setReg_access hfault hinbox (State.access_setRegByte _ hq b), ?_⟩
    rw [State.access_getRegByte _ hq, State.returnValue_portOut]
    refine congrArg some ((s.reg_setReg q b).trans ?_)
    simp [Reg.eq_status_iff, hq, ← BitVec.toNat_inj, Config.statusFixed]

/-- Settles O57: a call is one step, and its answer records a fault exactly when a check fails. -/
theorem accessorFaultsExactlyOnIllegalArguments : Obligations.AccessorFaultsExactlyOnIllegalArguments :=
  fun s call rest hs =>
    ⟨_, step_access hs rfl, State.access_fault_eq_none_iff (s := { s with inbox := rest }) hs.1 call⟩

end Sys2Proof.Machine
end

section
/-! PROOFS for 41_flag_engine.md R68 to R73: the engine's functions as numbers and bits, and the sign-bit tests of
R71 and R72 as signed overflow (00_scope.md, glossary). -/
namespace Sys2Proof.Machine

open Sys2Proof Sys2Proof.Claims

/-! The overflow tests as conditions on the three bits 7 (R71, R72). -/

theorem addOverflow_eq_decide (a m r : Nat) :
    addOverflow a m r = decide (a.testBit 7 = m.testBit 7 ∧ a.testBit 7 ≠ r.testBit 7) := by
  simp [addOverflow, Bool.beq_eq_decide_eq, bne]

theorem subOverflow_eq_decide (a m r : Nat) :
    subOverflow a m r = decide (a.testBit 7 ≠ m.testBit 7 ∧ a.testBit 7 ≠ r.testBit 7) := by
  simp [subOverflow, Bool.beq_eq_decide_eq, bne]

/-- Settles O31: each function of the engine is its unsigned comparison or its condition on bits 7. -/
theorem flagEngineFunctions : Obligations.FlagEngineFunctions := by
  refine ⟨fun r => ⟨carryBin_eq r, carryBcd_eq r, signOf_eq r⟩, fun a b r => ⟨?_, ?_⟩⟩
  · rw [ovfAdd_eq, addOverflow_eq_decide]
    rfl
  · rw [ovfSub_eq, subOverflow_eq_decide]
    rfl

/-! Bit 7 as the sign of a two's complement byte. -/

theorem testBit_seven_eq_decide (n : Nat) : n.testBit 7 = decide (128 ≤ n % 256) := by
  rw [Nat.testBit_eq_decide_div_mod_eq, decide_eq_decide]
  omega

theorem toNat_eq_toInt_mod_256 (x : Byte) : (x.toNat : Int) = x.toInt % 256 := by
  rw [BitVec.toInt_eq_toNat_cond]
  split <;> omega

theorem toInt_fits_byte (x : Byte) : -128 ≤ x.toInt ∧ x.toInt ≤ 127 :=
  ⟨x.le_toInt, Int.le_of_lt_add_one x.toInt_lt⟩

theorem testBit_seven_toNat (x : Byte) : x.toNat.testBit 7 = decide (x.toInt < 0) :=
  x.msb_eq_getLsbD_last.symm.trans BitVec.msb_eq_toInt

/-- Bits 7 of an addition tell that the signed sum does not fit a byte: operands of one sign overflow exactly when the
byte of the sum has the other sign, and operands of different sign never do. -/
theorem addOverflow_adcSum (x y : Byte) (c : Bool) :
    addOverflow x.toNat y.toNat (adcSum x y c) =
      decide (x.toInt + y.toInt + c.toNat < -128 ∨ 127 < x.toInt + y.toInt + c.toNat) := by
  have hx := toInt_fits_byte x
  have hy := toInt_fits_byte y
  have hc := c.toNat_le
  have hsum : ((adcSum x y c % 256 : Nat) : Int) = (x.toInt + y.toInt + c.toNat) % 256 := by
    have hxmod := toNat_eq_toInt_mod_256 x
    have hymod := toNat_eq_toInt_mod_256 y
    unfold adcSum
    omega
  rw [addOverflow_eq_decide, testBit_seven_toNat, testBit_seven_toNat, testBit_seven_eq_decide]
  simp only [ne_eq, decide_eq_decide]
  by_cases hsign : x.toInt < 0 ↔ y.toInt < 0
  · rw [and_iff_right hsign]
    omega
  · exact iff_of_false (fun h => hsign h.1) (by omega)

/-- Bits 7 of a subtraction tell that the signed difference does not fit a byte: operands of different sign overflow
exactly when the byte of the difference lost the sign of the first, and operands of one sign never do. -/
theorem subOverflow_sbcDiff (x y : Byte) (c : Bool) :
    subOverflow x.toNat y.toNat (sbcDiff x y c % 256).toNat =
      decide (x.toInt - y.toInt - c.toNat < -128 ∨ 127 < x.toInt - y.toInt - c.toNat) := by
  have hx := toInt_fits_byte x
  have hy := toInt_fits_byte y
  have hc := c.toNat_le
  have hdiff : sbcDiff x y c % 256 = (x.toInt - y.toInt - c.toNat) % 256 := by
    have hxmod := toNat_eq_toInt_mod_256 x
    have hymod := toNat_eq_toInt_mod_256 y
    unfold sbcDiff
    omega
  rw [hdiff, subOverflow_eq_decide, testBit_seven_toNat, testBit_seven_toNat, testBit_seven_eq_decide]
  simp only [ne_eq, decide_eq_decide]
  by_cases hsign : x.toInt < 0 ↔ y.toInt < 0
  · exact iff_of_false (fun h => h.1 hsign) (by omega)
  · rw [and_iff_right hsign]
    omega

/-- Settles O26: V is the sign-bit test of the raw sum when D = 0 and of the raw difference in either mode. -/
theorem overflowFlagIsSignedOverflow : Obligations.OverflowFlagIsSignedOverflow := by
  refine ⟨fun ctx s hd => ⟨_, rfl, ?_⟩, fun ctx s => ⟨_, rfl, ?_⟩⟩
  · obtain ⟨-, -, -, -, hovf⟩ := addWithCarry_eq (s.reg .a) ctx.operand (s.flag .carry) (s.flag .decimal)
    have honce : adcOnce (s.reg .a) ctx.operand (s.flag .carry) (s.flag .decimal) =
        adcSum (s.reg .a) ctx.operand (s.flag .carry) := by simp [adcOnce, hd]
    rw [State.flag_writeAlu, inputByte_eq]
    exact hovf.trans (honce ▸ addOverflow_adcSum _ _ _)
  · obtain ⟨-, -, -, -, hovf⟩ := subtractWithCarry_eq (s.reg .a) ctx.operand (s.flag .carry) (s.flag .decimal)
    rw [State.flag_writeAlu, inputByte_eq]
    exact hovf.trans (subOverflow_sbcDiff _ _ _)

end Sys2Proof.Machine
end

section
/-! PROOFS for 42_arithmetic.md R76 to R80: ADC, SBC and the compares over numbers, and the decimal corrections as
arithmetic of two decimal digits (00_scope.md section 6). -/
namespace Sys2Proof.Machine

open Sys2Proof Sys2Proof.Claims

/-- Bits 39:32 of the control word are the code of R50. -/
theorem handlerField_eq (i : Instr) : handlerField i = i.handlerCode.toNat := by
  rw [handlerField, ← Fields.toNat_h_ofWord, Fields.ofWord_encode, Instr.fields]

/-- ADC and SBC share the frame of R24 and R28, whatever they compute. -/
theorem Frame.writeAlu_flags (s : State) (r : Alu) :
    Frame [.a] [.carry, .zero, .overflow, .sign] [] s (s.writeAlu r) :=
  (Frame.writeAlu s r).mono (by simp) (by simp) (by simp)

/-- With D = 0 no correction is made, and the carry is that of the raw sum (R76). -/
theorem addWithCarry_carry (x y : Byte) (c d : Bool) :
    (addWithCarry x y c d).carry =
      if d = true then decide (0x99 < adcTwice x y c d) else decide (0xFF < adcSum x y c) := by
  obtain ⟨-, hcarry, -⟩ := addWithCarry_eq x y c d
  cases d with
  | false => simpa [adcTwice, adcOnce] using hcarry
  | true => exact hcarry

/-- Settles O24: the sums in naturals are those of the handler. -/
theorem adcAddsWithCarry : Obligations.AdcAddsWithCarry := by
  intro ctx s
  obtain ⟨hvalue, -, hzero, hsign, hovf⟩ :=
    addWithCarry_eq (s.reg .a) ctx.operand (s.flag .carry) (s.flag .decimal)
  refine ⟨handlerField_eq _, _, rfl, ?_⟩
  simp only [State.writeAlu_a, State.flag_writeAlu, inputByte_eq]
  exact ⟨hvalue, addWithCarry_carry _ _ _ _, hzero, hsign, hovf, rfl, Frame.writeAlu_flags s _⟩

/-- Settles O25: the differences in integers are those of the handler. -/
theorem sbcSubtractsWithCarry : Obligations.SbcSubtractsWithCarry := by
  intro ctx s
  obtain ⟨hvalue, hcarry, hzero, hsign, hovf⟩ :=
    subtractWithCarry_eq (s.reg .a) ctx.operand (s.flag .carry) (s.flag .decimal)
  have hpos : 0 ≤ sbcTwice (s.reg .a) ctx.operand (s.flag .carry) (s.flag .decimal) % 256 := by omega
  refine ⟨handlerField_eq _, _, rfl, ?_⟩
  simp only [State.writeAlu_a, State.flag_writeAlu, inputByte_eq]
  exact ⟨by rw [hvalue, Int.toNat_of_nonneg hpos]; rfl, hcarry, hzero, hsign, hovf, rfl, Frame.writeAlu_flags s _⟩

/-- A compare's carry asks only for no borrow, as a byte less a number is always below 256 (D6). -/
theorem State.carry_compare (s : State) (r : Reg) (ctx : Ctx) :
    (s.compare r ctx).flag .carry = decide (ctx.ea.toNat ≤ (s.reg r).toNat) := by
  obtain ⟨hcarry, -, -⟩ := s.compare_flags r ctx
  rw [hcarry, decide_eq_decide]
  omega

/-- Settles O29: the three compares are one function of the register. -/
theorem comparesSubtractTheEffectiveAddress : Obligations.ComparesSubtractTheEffectiveAddress := by
  intro ctx s
  have hcompare (r : Reg) :
      (s.compare r ctx).flag .carry = decide (ctx.ea.toNat ≤ (s.reg r).toNat) ∧
      (s.compare r ctx).flag .sign = ((((s.reg r).toNat : Int) - ctx.ea.toNat) % 256).toNat.testBit 7 ∧
      (s.compare r ctx).flag .zero = decide ((((s.reg r).toNat : Int) - ctx.ea.toNat) % 256 = 0) ∧
      (s.compare r ctx).pc = s.pc ∧ Frame [] [.carry, .sign, .zero] [] s (s.compare r ctx) := by
    obtain ⟨-, hzero, hsign⟩ := s.compare_flags r ctx
    exact ⟨s.carry_compare r ctx, hsign, hzero, s.compare_pc r ctx, Frame.compare s r ctx⟩
  simp only [List.forall_mem_cons, List.not_mem_nil, false_imp_iff, implies_true, and_true]
  exact ⟨⟨handlerField_eq _, _, rfl, hcompare .a⟩, ⟨handlerField_eq _, _, rfl, hcompare .x⟩,
    ⟨handlerField_eq _, _, rfl, hcompare .y⟩⟩

/-! Decimal mode on two decimal digits: the first correction is the carry or borrow between the digits, the second the
one out of the tens. -/

/-- A byte that holds the tens `t`, taken modulo 10, and the units `u` stands for `10 t + u` modulo 100. -/
theorem isBcd_of_digits {z : Byte} {t u : Int} (hz : (z.toNat : Int) = 16 * (t % 10) + u) (hu : 0 ≤ u ∧ u < 10) :
    IsBcd z ∧ (bcdValue z : Int) = (10 * t + u) % 100 := by
  unfold bcdValue
  omega

/-- The low digits and the carry; 10 or more carry into the tens. -/
def lowDigitsSum (x y : Byte) (c : Bool) : Nat := x.toNat % 16 + y.toNat % 16 + c.toNat

theorem adcOnce_decimal (x y : Byte) (c : Bool) (h : lowDigitsSum x y c < 20) :
    adcOnce x y c true =
      16 * (x.toNat / 16 + y.toNat / 16 + lowDigitsSum x y c / 10) + lowDigitsSum x y c % 10 := by
  simp only [adcOnce, adcSum, true_and]
  unfold lowDigitsSum at *
  split <;> omega

/-- The corrected sum of two decimal numbers: units, and tens from which 96 lifts a carry out of the byte. -/
theorem adcTwice_digits {x y : Byte} (hx : IsBcd x) (hy : IsBcd y) (c : Bool) :
    ∃ t u : Nat, u < 10 ∧ t < 20 ∧ bcdValue x + bcdValue y + c.toNat = 10 * t + u ∧
      adcTwice x y c true = 16 * t + u + if 10 ≤ t then 96 else 0 := by
  have hc := c.toNat_le
  have hlow : lowDigitsSum x y c < 20 := by unfold lowDigitsSum; omega
  refine ⟨x.toNat / 16 + y.toNat / 16 + lowDigitsSum x y c / 10, lowDigitsSum x y c % 10, by omega, by omega, ?_, ?_⟩
  · simp only [bcdValue, lowDigitsSum]
    omega
  · simp only [adcTwice, adcOnce_decimal x y c hlow, true_and]
    split <;> split <;> omega

/-- Settles O27: the digits of the corrected sum, with the tens modulo 10 left in A. -/
theorem decimalAdcAddsDecimalNumbers : Obligations.DecimalAdcAddsDecimalNumbers := by
  intro ctx s hd hx hy
  obtain ⟨hvalue, hcarry, -, -, -⟩ := addWithCarry_eq (s.reg .a) ctx.operand (s.flag .carry) true
  obtain ⟨t, u, hu, ht, hsum, htwice⟩ := adcTwice_digits hx hy (s.flag .carry)
  rw [htwice] at hvalue hcarry
  have hbyte : ((addWithCarry (s.reg .a) ctx.operand (s.flag .carry) true).value.toNat : Int) = 16 * (t % 10) + u := by
    rw [hvalue]
    split <;> omega
  obtain ⟨hdigits, hnumber⟩ := isBcd_of_digits hbyte (by omega)
  refine ⟨_, rfl, ?_⟩
  simp only [State.writeAlu_a, State.flag_writeAlu, inputByte_eq, hd, hsum]
  refine ⟨hdigits, by omega, hcarry.trans ?_⟩
  simp only [if_true, decide_eq_decide]
  split <;> omega

/-- The low digits' difference less the carry; a negative one borrows from the tens. -/
def lowDigitsDiff (x y : Byte) (c : Bool) : Int := (x.toNat % 16 : Nat) - (y.toNat % 16 : Nat) - c.toNat

theorem sbcOnce_decimal (x y : Byte) (c : Bool) (h : -10 ≤ lowDigitsDiff x y c ∧ lowDigitsDiff x y c < 10) :
    sbcOnce x y c true =
      16 * (x.toNat / 16 - y.toNat / 16 + lowDigitsDiff x y c / 10) + lowDigitsDiff x y c % 10 := by
  simp only [sbcOnce, sbcDiff, true_and]
  unfold lowDigitsDiff at *
  split <;> omega

/-- The corrected difference of two decimal numbers: units, and tens from which 96 more takes a borrow. -/
theorem sbcTwice_digits {x y : Byte} (hx : IsBcd x) (hy : IsBcd y) (c : Bool) :
    ∃ t u : Int, (0 ≤ u ∧ u < 10) ∧ (-10 ≤ t ∧ t < 10) ∧ (bcdValue x : Int) - bcdValue y - c.toNat = 10 * t + u ∧
      sbcTwice x y c true = 16 * t + u - if t < 0 then 96 else 0 := by
  have hc := c.toNat_le
  have hlow : -10 ≤ lowDigitsDiff x y c ∧ lowDigitsDiff x y c < 10 := by unfold lowDigitsDiff; omega
  refine ⟨x.toNat / 16 - y.toNat / 16 + lowDigitsDiff x y c / 10, lowDigitsDiff x y c % 10, by omega, by omega, ?_, ?_⟩
  · simp only [bcdValue, lowDigitsDiff]
    omega
  · simp only [sbcTwice, sbcOnce_decimal x y c hlow, true_and]
    split <;> split <;> omega

/-- Settles O28: the digits of the corrected difference, with the tens modulo 10 left in A. -/
theorem decimalSbcSubtractsDecimalNumbers : Obligations.DecimalSbcSubtractsDecimalNumbers := by
  intro ctx s hd hx hy
  obtain ⟨hvalue, hcarry, -, -, -⟩ := subtractWithCarry_eq (s.reg .a) ctx.operand (s.flag .carry) true
  obtain ⟨t, u, hu, ht, hdiff, htwice⟩ := sbcTwice_digits hx hy (s.flag .carry)
  rw [htwice] at hvalue hcarry
  have hbyte : ((subtractWithCarry (s.reg .a) ctx.operand (s.flag .carry) true).value.toNat : Int) =
      16 * (t % 10) + u := by
    rw [hvalue]
    split <;> omega
  obtain ⟨hdigits, hnumber⟩ := isBcd_of_digits hbyte hu
  refine ⟨_, rfl, ?_⟩
  simp only [State.writeAlu_a, State.flag_writeAlu, inputByte_eq, hd, hdiff]
  refine ⟨hdigits, hnumber, hcarry.trans ?_⟩
  rw [decide_eq_decide]
  split <;> omega

end Sys2Proof.Machine
end

section
/-! PROOFS for 43_shifts.md R81 to R83: one shift for both handlers, and the byte each hands it as a number. -/
namespace Sys2Proof.Machine

open Sys2Proof Sys2Proof.Claims

/-- A left shift doubles a byte modulo 256 (R82). -/
theorem toNat_shiftLeft_one (v : Byte) : (v <<< 1).toNat = v.toNat * 2 % 256 := by
  rw [BitVec.toNat_shiftLeft, Nat.shiftLeft_eq, pow_one]

/-- A logical right shift halves a byte (R83). -/
theorem toNat_ushiftRight_one (v : Byte) : (v >>> 1).toNat = v.toNat / 2 := by
  rw [BitVec.toNat_ushiftRight, Nat.shiftRight_eq_div_pow, pow_one]

/-- In Accumulator mode a shift leaves every byte alone (R82, R83). -/
theorem Frame.finishShift_accumulator (s : State) {ctx : Ctx} (out : Bool) (r : Byte) (h : ctx.mode = .accumulator) :
    Frame [.a] [.carry, .sign, .zero] [] s (s.finishShift ctx out r) := by
  simpa [h] using Frame.finishShift s ctx out r

/-- In every other mode a shift leaves A alone, and every byte but the one at the store address (R82, R83). -/
theorem Frame.finishShift_memory (s : State) {ctx : Ctx} (out : Bool) (r : Byte) (h : ctx.mode ≠ .accumulator) :
    Frame [] [.carry, .sign, .zero] [storeAddr ctx] s (s.finishShift ctx out r) := by
  simpa [h] using Frame.finishShift s ctx out r

/-- The state `t` a shift leaves when the byte it writes is the number `n`. -/
theorem State.finishShift_toNat {s t : State} {ctx : Ctx} {out : Bool} {r : Byte} {n : Nat} (hr : r.toNat = n)
    (ht : s.finishShift ctx out r = t) :
    t.flag .carry = out ∧ t.flag .sign = n.testBit 7 ∧ t.flag .zero = decide (n = 0) ∧ t.pc = s.pc ∧
    (ctx.mode = .accumulator → (t.reg .a).toNat = n ∧ Frame [.a] [.carry, .sign, .zero] [] s t) ∧
    (ctx.mode ≠ .accumulator → (t.readByte ctx.ea).toNat = n ∧
      Frame [] [.carry, .sign, .zero] [storeAddr ctx] s t) := by
  subst hr ht
  have hzero : decide (r = 0#8) = decide (r.toNat = 0) := decide_eq_decide.mpr BitVec.toNat_inj.symm
  exact ⟨s.flag_finishShift ctx out r .carry, s.flag_finishShift ctx out r .sign,
    (s.flag_finishShift ctx out r .zero).trans hzero, s.finishShift_pc ctx out r,
    fun hm => ⟨congrArg _ (s.finishShift_accumulator ctx out r hm), Frame.finishShift_accumulator s out r hm⟩,
    fun hm => ⟨congrArg _ (s.finishShift_memory ctx out r hm), Frame.finishShift_memory s out r hm⟩⟩

/-- Settles O32: both handlers are the one shift, of the operand in every mode (D23). -/
theorem shiftsMoveTheOperand : Obligations.ShiftsMoveTheOperand := by
  intro ctx s
  simp only [List.forall_mem_cons, List.not_mem_nil, false_imp_iff, implies_true, and_true]
  exact ⟨⟨handlerField_eq _, _, rfl, State.finishShift_toNat (toNat_shiftLeft_one ctx.operand) rfl⟩,
    ⟨handlerField_eq _, _, rfl, State.finishShift_toNat (toNat_ushiftRight_one ctx.operand) rfl⟩⟩

end Sys2Proof.Machine
end

section
/-! PROOFS for 44_control.md R84 to R94: the eight branches are one conditional jump, JMP goes to `ea`, and JSR stacks
the decremented program counter. -/
namespace Sys2Proof.Machine

open Sys2Proof Sys2Proof.Claims

/-- An instruction that is the shared branch on a flag: its code, and both of its outcomes as whole states (R84). -/
theorem branch_takes_ea {i : Instr} {ctx : Ctx} {code : Nat} {f : Flag} {wanted : Bool} {s : State}
    (hcode : i.handlerCode.toNat = code) (hexec : exec i s = .next (s.branchWhen f wanted ctx)) :
    handlerField i = code ∧ exec i s = .next (if s.flag f = wanted then { s with pc := ctx.ea } else s) := by
  rw [handlerField_eq, hexec]
  exact ⟨hcode, rfl⟩

/-- Settles O33: each row is the shared branch on the flag of its mnemonic (D8). -/
theorem branchesTakeTheEffectiveAddress : Obligations.BranchesTakeTheEffectiveAddress := by
  intro ctx s
  simp only [List.forall_mem_cons, List.not_mem_nil, false_imp_iff, implies_true, and_true]
  exact ⟨branch_takes_ea rfl rfl, branch_takes_ea rfl rfl, branch_takes_ea rfl rfl, branch_takes_ea rfl rfl,
    branch_takes_ea rfl rfl, branch_takes_ea rfl rfl, branch_takes_ea rfl rfl, branch_takes_ea rfl rfl⟩

/-- Settles O34: the effective address has 16 bits, so R93's mask keeps it. -/
theorem jmpGoesToTheEffectiveAddress : Obligations.JmpGoesToTheEffectiveAddress := by
  intro ctx s
  have hmask : jumpTarget ctx = BitVec.ofNat 16 (ctx.ea.toNat % 2 ^ 16) := by
    rw [jumpTarget_eq, Nat.mod_eq_of_lt ctx.ea.isLt, BitVec.ofNat_toNat, BitVec.setWidth_eq]
  rw [← hmask]
  exact ⟨handlerField_eq _, rfl⟩

/-- The decrement of JSR in naturals (R22, R94). -/
theorem addr_sub_one_toNat (v : Addr) : (v - 1#16).toNat = (v.toNat + 0xFFFF) % 2 ^ 16 := by
  bv_omega

/-- The two bytes of a stacked number are its high and its low byte (R40). -/
theorem State.readByte_of_readPair {s : State} {lo hi : Addr} {n : Nat} (h : s.readPair lo hi = n) :
    (s.readByte hi).toNat = n / 256 ∧ (s.readByte lo).toNat = n % 256 := by
  have hlo : (s.readByte lo).toNat < 256 := (s.readByte lo).isLt
  unfold State.readPair at h
  omega

/-- Settles O35: the stacked pair is the decremented `pc`, and the frame is that of JSR's row. -/
theorem jsrPushesAndJumps : Obligations.JsrPushesAndJumps := by
  intro ctx s hi lo ret
  have hlo : lo.toNat = 0x100 + ((s.reg .sp).toNat + 255) % 256 := by
    rw [stackAddr_toNat]
    bv_omega
  have hpair : (s.setPc (s.pc - 1#16)).pushPc.readPair lo hi = ret :=
    (s.setPc (s.pc - 1#16)).readPair_pushPc.trans (addr_sub_one_toNat s.pc)
  obtain ⟨hhigh, hlow⟩ := State.readByte_of_readPair hpair
  have htarget : (callTarget ctx).toNat = ctx.operand.toNat := BitVec.toNat_setWidth_of_le (by decide)
  exact ⟨handlerField_eq _, stackAddr_toNat _, hlo, _, rfl, hhigh, hlow, (s.setPc (s.pc - 1#16)).pushPc_sp, htarget,
    Frame.execJsr ctx s⟩

end Sys2Proof.Machine
end

section
/-! PROOFS for 45_load_store.md R96 to R103: the loads, the stores and the transfers are each one operation, whichever
registers the mnemonic names. -/
namespace Sys2Proof.Machine

open Sys2Proof Sys2Proof.Claims

/-- What a load into `r` does (R97 to R99). -/
theorem State.load_takes_operand (s : State) (ctx : Ctx) {r : Reg} (hr : r ≠ .status) :
    (s.load r ctx).reg r = ctx.operand ∧ (s.load r ctx).flag .sign = ctx.operand.toNat.testBit 7 ∧
    (s.load r ctx).flag .zero = decide (ctx.operand.toNat = 0) ∧ (s.load r ctx).pc = s.pc ∧
    Frame [r] [.sign, .zero] [] s (s.load r ctx) := by
  have hzero : decide (ctx.operand = 0#8) = decide (ctx.operand.toNat = 0) :=
    decide_eq_decide.mpr BitVec.toNat_inj.symm
  exact ⟨s.load_reg r ctx hr, s.flag_load r ctx .sign hr, (s.flag_load r ctx .zero hr).trans hzero, s.load_pc r ctx,
    Frame.load s r ctx hr⟩

/-- Settles O37: each row is the one load, into the register of its mnemonic. -/
theorem loadsTakeTheOperand : Obligations.LoadsTakeTheOperand := by
  intro ctx s
  simp only [List.forall_mem_cons, List.not_mem_nil, false_imp_iff, implies_true, and_true]
  exact ⟨⟨handlerField_eq _, _, rfl, s.load_takes_operand ctx (by decide)⟩,
    ⟨handlerField_eq _, _, rfl, s.load_takes_operand ctx (by decide)⟩,
    ⟨handlerField_eq _, _, rfl, s.load_takes_operand ctx (by decide)⟩⟩

/-- What a store of the byte `v` does (R100, R101). -/
theorem State.store_writes_byte (s : State) (ctx : Ctx) (v : Byte) :
    (s.writeByte (storeAddr ctx) v).readByte ctx.ea = v ∧
    (s.writeByte (storeAddr ctx) v).reg .status = s.reg .status ∧ (s.writeByte (storeAddr ctx) v).pc = s.pc ∧
    Frame [] [] [storeAddr ctx] s (s.writeByte (storeAddr ctx) v) := by
  have hread : (s.writeByte (storeAddr ctx) v).readByte ctx.ea = v := by
    rw [State.readByte_writeByte, if_pos (storeAddr_eq ctx).symm]
  exact ⟨hread, s.reg_writeByte _ v .status, s.writeByte_pc _ v, Frame.writeByte s _ v⟩

/-- Settles O38: each row stores the register of its mnemonic. -/
theorem storesWriteOneByte : Obligations.StoresWriteOneByte := by
  intro ctx s
  simp only [List.forall_mem_cons, List.not_mem_nil, false_imp_iff, implies_true, and_true]
  exact ⟨⟨handlerField_eq _, _, rfl, s.store_writes_byte ctx (s.reg .a)⟩,
    ⟨handlerField_eq _, _, rfl, s.store_writes_byte ctx (s.reg .x)⟩⟩

/-- What a write of `v` to a register other than the status register does (R102, R103). -/
theorem State.transfer_keeps_status (s : State) {r : Reg} (hr : r ≠ .status) (v : Byte) :
    (s.setReg r v).reg r = v ∧ (s.setReg r v).reg .status = s.reg .status ∧ (s.setReg r v).pc = s.pc ∧
    Frame [r] [] [] s (s.setReg r v) :=
  ⟨s.reg_setReg_same r v hr, s.reg_setReg_other r .status v hr.symm, s.setReg_pc r v, Frame.setReg s r v hr⟩

/-- Settles O39: each row writes the destination of its mnemonic and leaves the status register alone. -/
theorem transfersWriteNoFlag : Obligations.TransfersWriteNoFlag := by
  intro ctx s
  simp only [List.forall_mem_cons, List.not_mem_nil, false_imp_iff, implies_true, and_true]
  exact ⟨⟨handlerField_eq _, _, rfl, s.transfer_keeps_status (by decide) (s.reg .a)⟩,
    ⟨handlerField_eq _, _, rfl, s.transfer_keeps_status (by decide) (s.reg .y)⟩⟩

end Sys2Proof.Machine
end

section
/-! PROOFS for 46_flag_ops.md R104 to R108: the five handlers are each one write of one flag. -/
namespace Sys2Proof.Machine

open Sys2Proof Sys2Proof.Claims

/-- An instruction whose handler is the one write of `b` into the flag `f`: its code, the flag, and all that stays. -/
theorem flag_instruction_writes_flag {i : Instr} {code : Nat} {f : Flag} {b : Bool} {s : State}
    (hcode : i.handlerCode.toNat = code) (hexec : exec i s = .next (s.setFlag f b)) :
    handlerField i = code ∧ ∃ t, exec i s = .next t ∧ t.flag f = b ∧ t.pc = s.pc ∧ Frame [] [f] [] s t := by
  have hflag : (s.setFlag f b).flag f = b := by rw [State.flag_setFlag, if_pos rfl]
  exact ⟨(handlerField_eq i).trans hcode, _, hexec, hflag, s.setFlag_pc f b, Frame.setFlag s f b⟩

/-- Settles O40: each row is the one write of the flag, and with the value, of its mnemonic (D9). -/
theorem flagInstructionsWriteOneFlag : Obligations.FlagInstructionsWriteOneFlag := by
  intro ctx s
  simp only [List.forall_mem_cons, List.not_mem_nil, false_imp_iff, implies_true, and_true]
  exact ⟨flag_instruction_writes_flag rfl rfl, flag_instruction_writes_flag rfl rfl,
    flag_instruction_writes_flag rfl rfl, flag_instruction_writes_flag rfl rfl, flag_instruction_writes_flag rfl rfl⟩

end Sys2Proof.Machine
end

section
/-! PROOFS for 47_logical.md R109 to R111: AND and ORA are one write of A with its flags; BIT writes three flags. -/
namespace Sys2Proof.Machine

open Sys2Proof Sys2Proof.Claims

theorem zeroOf_wide (v : Byte) : zeroOf (wide v) = decide (v = 0#8) := by
  rw [zeroOf, decide_eq_decide, ← BitVec.toNat_inj, ← BitVec.toNat_inj, toNat_trunc8, toNat_wide,
    Nat.mod_eq_of_lt v.isLt]

/-- The AND of two bytes is 0 exactly when no bit is set in both (D24). -/
theorem and_eq_zero_iff_no_common_bit (x y : Byte) :
    x &&& y = 0#8 ↔ ∀ n < 8, ¬(y.getLsbD n = true ∧ x.getLsbD n = true) := by
  simp only [BitVec.eq_of_getLsbD_eq_iff, BitVec.getLsbD_and, BitVec.getLsbD_zero, Bool.and_eq_false_iff, not_and_or,
    Bool.not_eq_true, or_comm]

/-- An instruction that hands the byte `r` to the shared end of AND and ORA, where `r` is `op` of A and `m` bit by bit. -/
theorem combine_instruction_writes_accumulator {i : Instr} {code : Nat} {op : Bool → Bool → Bool} {m r : Byte}
    {s : State} (hcode : i.handlerCode.toNat = code) (hexec : exec i s = .next (s.combine r))
    (hbits : ∀ n < 8, r.getLsbD n = op ((s.reg .a).getLsbD n) (m.getLsbD n)) :
    handlerField i = code ∧
    ∃ t, exec i s = .next t ∧ (∀ n < 8, (t.reg .a).getLsbD n = op ((s.reg .a).getLsbD n) (m.getLsbD n)) ∧
      t.flag .sign = (t.reg .a).getLsbD 7 ∧ t.flag .zero = decide (t.reg .a = 0#8) ∧ t.pc = s.pc ∧
      Frame [.a] [.sign, .zero] [] s t :=
  ⟨(handlerField_eq i).trans hcode, _, hexec, hbits, s.flag_combine r .sign, s.flag_combine r .zero, s.combine_pc r,
    Frame.combine s r⟩

/-- Settles O41: each row hands its byte to the shared end of AND and ORA. -/
theorem andOraCombineWithTheOperand : Obligations.AndOraCombineWithTheOperand := by
  intro ctx s
  simp only [List.forall_mem_cons, List.not_mem_nil, false_imp_iff, implies_true, and_true]
  exact ⟨combine_instruction_writes_accumulator rfl rfl fun _ _ => BitVec.getLsbD_and,
    combine_instruction_writes_accumulator rfl rfl fun _ _ => BitVec.getLsbD_or⟩

/-- Settles O42: the three flags are written one after the other, and none of them is read by BIT. -/
theorem bitTestsTheOperand : Obligations.BitTestsTheOperand := by
  intro ctx s
  refine ⟨handlerField_eq _, _, rfl, ?_, ?_, ?_, rfl, frame_of_exec (i := .bit ctx) rfl⟩
  · simp [BitVec.testBit_toNat]
  · simp [BitVec.testBit_toNat]
  · simp [zeroOf_wide, and_eq_zero_iff_no_common_bit]

end Sys2Proof.Machine
end

section
/-! PROOFS for 48_system_stack.md R112 to R117: PUSH and PULL at the slots of the stack page, and the four handlers that
are NOP or built from them. -/
namespace Sys2Proof.Machine

open Sys2Proof Sys2Proof.Claims

/-- Settles O43: NOP answers the state it is given. -/
theorem nopChangesNothing : Obligations.NopChangesNothing :=
  fun _ _ => ⟨handlerField_eq _, rfl⟩

/-! PUSH and PULL (R113, R114). -/

theorem eq_stackAddr_of_toNat {slot : Addr} {v : Byte} (h : slot.toNat = 0x100 + v.toNat) : slot = stackAddr v :=
  BitVec.eq_of_toNat_eq (h.trans (stackAddr_toNat v).symm)

/-- SP moves down modulo 256 (D36). -/
theorem byte_sub_one_toNat (v : Byte) : (v - 1#8).toNat = (v.toNat + 255) % 256 := by
  bv_omega

/-- SP moves up modulo 256 (D36). -/
theorem byte_add_one_toNat (v : Byte) : (v + 1#8).toNat = (v.toNat + 1) % 256 := by
  bv_omega

theorem State.pulled_push (s : State) (v : Byte) : (s.push v).pulled = v := by
  rw [State.pulled_eq, State.push_sp, BitVec.sub_add_cancel, State.readByte_push, if_pos rfl]

@[simp] theorem State.pulled_setFlag (s : State) (f : Flag) (b : Bool) : (s.setFlag f b).pulled = s.pulled := rfl

/-- Settles O44: the slot is the stack address of SP. -/
theorem pushWritesThenMovesDown : Obligations.PushWritesThenMovesDown := by
  intro s v slot hslot
  obtain rfl : slot = stackAddr s.sp := eq_stackAddr_of_toNat hslot
  have hread : (s.push v).readByte (stackAddr s.sp) = v := by rw [State.readByte_push, if_pos rfl]
  exact ⟨hread, byte_sub_one_toNat s.sp, s.push_pc v, s.push_status v, Frame.push s v⟩

/-- Settles O45: PULL reads the slot PUSH wrote, and a PUSH of the byte PULL read writes what stands there. -/
theorem pullUndoesPush : Obligations.PullUndoesPush := by
  refine ⟨fun s slot hslot => ?_, fun s v => ⟨s.pulled_push v, BitVec.sub_add_cancel s.sp 1#8⟩, fun s => ⟨?_, ?_⟩⟩
  · obtain rfl : slot = stackAddr (s.sp + 1#8) :=
      eq_stackAddr_of_toNat (hslot.trans (congrArg _ (byte_add_one_toNat s.sp).symm))
    exact ⟨s.pulled_eq, byte_add_one_toNat s.sp, s.popped_pc, s.popped_status, Frame.popped s⟩
  · exact BitVec.add_sub_cancel s.sp 1#8
  · intro addr
    rw [State.readByte_push, State.readByte_popped, State.popped_sp]
    split
    next haddr => rw [haddr, State.pulled_eq]
    next => rfl

/-! BRK, PLA and PLP (R115 to R117). -/

/-- Settles O46: the stacked pair is the incremented `pc`, the third byte is the status before B and D are set, and the
frame is that of BRK's row. -/
theorem brkStacksPcAndStatus : Obligations.BrkStacksPcAndStatus := by
  intro ctx s hi lo st ret
  have hlo : lo.toNat = 0x100 + ((s.reg .sp).toNat + 255) % 256 := by
    rw [stackAddr_toNat, byte_sub_one_toNat]
  have hst : st.toNat = 0x100 + ((s.reg .sp).toNat + 254) % 256 := by
    rw [stackAddr_toNat]
    bv_omega
  have hret : (s.pc + 1#16).toNat = ret := by simp [ret]
  obtain ⟨hhigh, hlow⟩ :=
    State.readByte_of_readPair (((s.setPc (s.pc + 1#16)).readPair_push_pushPc s.status).trans hret)
  refine ⟨handlerField_eq _, stackAddr_toNat _, hlo, hst, _, rfl, hhigh, hlow, ?_, ?_, ?_, ?_, hret,
    frame_of_exec (i := .brk ctx) rfl⟩
  · simp [st, State.reg]
  · simp only [State.reg, State.setFlag_sp, State.push_sp, State.pushPc_sp, State.setPc_sp]
    bv_omega
  · simp
  · simp

/-- Settles O47: PULL, then the write of A and of its two flags. -/
theorem plaPullsTheAccumulator : Obligations.PlaPullsTheAccumulator := by
  intro ctx s v
  have hzero : decide (v = 0#8) = decide (v.toNat = 0) := decide_eq_decide.mpr BitVec.toNat_inj.symm
  have hframe := frame_of_exec (i := .pla ctx) (s := s) rfl
  exact ⟨handlerField_eq _, _, rfl, rfl, rfl, State.flag_setSignZero _ v .sign,
    (State.flag_setSignZero _ v .zero).trans hzero, rfl,
    hframe.mono (by simp [Instr.writtenRegs]) (List.Subset.refl _) (List.Subset.refl _)⟩

/-- Settles O48: PULL, then the one write of the status register. -/
theorem plpPullsTheStatus : Obligations.PlpPullsTheStatus := by
  intro ctx s v
  refine ⟨handlerField_eq _, _, rfl, rfl, fun n _ => ?_, rfl, frame_of_exec (i := .plp ctx) rfl⟩
  rw [State.reg_setReg_status, getLsbD_or_statusFixed, State.pulled_eq]
  by_cases hn : n = 5 <;> simp [hn, v, State.reg]

/-- Writing the status register with the byte it holds keeps it, where bit 5 was set (R26). -/
theorem or_statusFixed_eq_self {b : Byte} (h : b.getLsbD 5 = true) : b ||| Config.statusFixed = b := by
  apply BitVec.eq_of_getLsbD_eq
  intro n _
  rw [getLsbD_or_statusFixed]
  by_cases hn : n = 5 <;> simp [hn, h]

/-- Settles O49: PLP pulls the byte BRK pushed last, the status before B and D were set. -/
theorem plpAfterBrkRestoresTheStatus : Obligations.PlpAfterBrkRestoresTheStatus := by
  intro s c d hbit
  refine ⟨_, _, rfl, rfl, ?_, ?_, rfl⟩
  · rw [State.reg_setReg_status, State.pulled_setFlag, State.pulled_setFlag, State.pulled_push]
    exact or_statusFixed_eq_self hbit
  · simp [State.reg]

end Sys2Proof.Machine
end

section
/-! PROOFS for 60_exceptions.md R118 to R128: what records a fault and why, what a halted block answers, and the
diagnostics read-out. -/
namespace Sys2Proof.Machine

open Sys2Proof Sys2Proof.Claims

/-! Recording a fault (R118, R119). -/

/-- A word that does not decode fails the check its code names (R54). -/
theorem decode_error_cases {cw : CtrlWord} {code : FaultCode} (h : decode cw = .error code) :
    (code = .reservedField ∧ cw.toNat / 2 ^ 24 % 16 ≠ 0) ∨
    (code = .unknownHandler ∧ (cw.toNat / 2 ^ 32 = 0 ∨ 0x25 ≤ cw.toNat / 2 ^ 32)) ∨
    (code = .illegalMode ∧ 12 < cw.toNat / 2 ^ 28 % 16) := by
  by_cases hrsv : cw.toNat / 2 ^ 24 % 16 = 0
  · by_cases hh : 1 ≤ cw.toNat / 2 ^ 32 ∧ cw.toNat / 2 ^ 32 ≤ 0x24
    · by_cases hm : cw.toNat / 2 ^ 28 % 16 ≤ 12
      · obtain ⟨i, hi⟩ := exists_decode_eq_ok hrsv hh hm
        cases h.symm.trans hi
      · cases h.symm.trans (decode_of_illegal_mode hrsv hh (by omega))
        exact .inr (.inr ⟨rfl, by omega⟩)
    · cases h.symm.trans (decode_of_unassigned hrsv hh)
      exact .inr (.inl ⟨rfl, by omega⟩)
  · cases h.symm.trans (decode_of_reserved hrsv)
    exact .inl ⟨rfl, hrsv⟩

/-- EXECUTE records a code only where the decoder answers it: no handler records one (R66). -/
theorem execute_fault {cw : CtrlWord} {s t : State} {code : FaultCode} (hs : s.fault = none)
    (h : execute cw s = .next t) (ht : t.fault = some code) : decode cw = .error code ∧ t = s.raiseFault code := by
  cases hd : decode cw with
  | ok i =>
    obtain ⟨u, hu, hfault, -⟩ := handlersAlwaysComplete i s
    cases (hu.symm.trans (execute_of_decode_ok hd s).symm).trans h
    cases (hs.symm.trans hfault.symm).trans ht
  | error c =>
    cases (execute_of_decode_error hd s).symm.trans h
    cases ht
    exact ⟨rfl, rfl⟩

/-- An accessor call that records a code writes nothing else. -/
theorem State.access_fault {s : State} {call : Accessor} {code : FaultCode} (hs : s.fault = none)
    (h : (s.access call).fault = some code) : s.access call = s.raiseFault code := by
  obtain ⟨c, hc⟩ | ⟨r, v, hc⟩ | ⟨v, hc⟩ := s.access_cases call
  · rw [hc] at h ⊢
    cases h
    rfl
  · simp [hc, hs] at h
  · simp [hc, hs] at h

/-- Whatever is served, nothing but the code is written where one is recorded (R119). -/
theorem serve_fault {e : Event} {s t : State} {code : FaultCode} (hs : s.fault = none) (h : serve e s = .next t)
    (ht : t.fault = some code) : t = s.raiseFault code := by
  cases e with
  | operation o =>
    cases o with
    | execute cw => exact (execute_fault hs h ht).2
    | access call => cases h; exact State.access_fault hs ht
    | reset => cases h; cases ht
  | writePc v | writeMem p v => cases h; cases hs.symm.trans ht

/-- Settles O14: an idle step records no code, and what is served writes nothing but the code it records. -/
theorem faultsArePrecise : Obligations.FaultsArePrecise := by
  intro s t code h ht
  obtain ⟨hs, ⟨-, rfl⟩ | ⟨e, rest, hinbox, hserve⟩⟩ := step_next_cases h
  · cases hs.symm.trans ht
  · exact ⟨hs, e, rest, hinbox, serve_fault (s := { s with inbox := rest }) hs hserve ht⟩

/-- A call that names a register fails the register check, or its argument is the index of a register (R58). -/
theorem State.access_register_cases {s : State} {call : Accessor} {r : Byte} {code : FaultCode}
    (hcall : call.register = some r) (h : (s.access call).fault = some code) :
    (code = .registerName ∧ 4 < r.toNat) ∨ ∃ q : Reg, q.index = r.toNat := by
  by_cases hr : 4 < r.toNat
  · rw [s.access_of_illegal_register hcall hr] at h
    cases h
    exact .inl ⟨rfl, hr⟩
  · exact .inr (Reg.exists_index_eq (Nat.le_of_not_lt hr))

/-! Which check a call failed, when it recorded a code (R59 to R62). -/

theorem State.access_setRegBit_fault_cases {s : State} {r i v : Byte} {code : FaultCode} (hs : s.fault = none)
    (h : (s.access (.setRegBit r i v)).fault = some code) :
    (code = .registerName ∧ 4 < r.toNat) ∨ (code = .bitIndex ∧ 7 < i.toNat) ∨
    (code = .reservedBit ∧ r = 0#8 ∧ i = 5#8) ∨ (code = .bitValue ∧ 1 < v.toNat) := by
  obtain hname | ⟨q, hq⟩ := State.access_register_cases rfl h
  · exact .inl hname
  rw [State.access_setRegBit _ hq] at h
  split_ifs at h with hi hres hv
  · cases h
    exact .inr (.inl ⟨rfl, hi⟩)
  · cases h
    exact .inr (.inr (.inl ⟨rfl, BitVec.eq_of_toNat_eq hres.1, BitVec.eq_of_toNat_eq hres.2⟩))
  · cases h
    exact .inr (.inr (.inr ⟨rfl, hv⟩))
  · simp [State.setRegBit, hs] at h

theorem State.access_getRegBit_fault_cases {s : State} {r i : Byte} {code : FaultCode} (hs : s.fault = none)
    (h : (s.access (.getRegBit r i)).fault = some code) :
    (code = .registerName ∧ 4 < r.toNat) ∨ (code = .bitIndex ∧ 7 < i.toNat) := by
  obtain hname | ⟨q, hq⟩ := State.access_register_cases rfl h
  · exact .inl hname
  rw [State.access_getRegBit _ hq] at h
  split_ifs at h with hi
  · cases h
    exact .inr ⟨rfl, hi⟩
  · simp [hs] at h

theorem State.access_setFlag_fault_cases {s : State} {f v : Byte} {code : FaultCode} (hs : s.fault = none)
    (h : (s.access (.setFlag f v)).fault = some code) :
    (code = .bitIndex ∧ 7 < f.toNat) ∨ (code = .reservedBit ∧ f = 5#8) ∨ (code = .bitValue ∧ 1 < v.toNat) := by
  rw [State.access_setFlag] at h
  split_ifs at h with hf hres hv
  · cases h
    exact .inl ⟨rfl, hf⟩
  · cases h
    exact .inr (.inl ⟨rfl, BitVec.eq_of_toNat_eq hres⟩)
  · cases h
    exact .inr (.inr ⟨rfl, hv⟩)
  · simp [State.setRegBit, hs] at h

theorem State.access_getFlag_fault_cases {s : State} {f : Byte} {code : FaultCode} (hs : s.fault = none)
    (h : (s.access (.getFlag f)).fault = some code) :
    (code = .bitIndex ∧ 7 < f.toNat) ∨ (code = .reservedBit ∧ f = 5#8) := by
  rw [State.access_getFlag] at h
  split_ifs at h with hf hres
  · cases h
    exact .inl ⟨rfl, hf⟩
  · cases h
    exact .inr ⟨rfl, BitVec.eq_of_toNat_eq hres⟩
  · simp [hs] at h

/-- Settles O15: a word's code is that of the check it fails, and an accessor's is that of its first check that fails. -/
theorem faultCodesHaveTheirCauses : Obligations.FaultCodesHaveTheirCauses := by
  refine ⟨rfl, ?_⟩
  rintro s t o rest code ⟨hs, hinbox⟩ hstep ht
  have hu : State.fault { s with inbox := rest } = none := hs
  have hoperate : operate o { s with inbox := rest } = .next t := (step_presented hs hinbox).symm.trans hstep
  cases o with
  | reset => cases hoperate; cases ht
  | execute cw =>
    obtain ⟨hdecode, -⟩ := execute_fault hu hoperate ht
    obtain ⟨rfl, hcw⟩ | ⟨rfl, hcw⟩ | ⟨rfl, hcw⟩ := decode_error_cases hdecode <;> exact ⟨cw, rfl, hcw⟩
  | access call =>
    cases hoperate
    cases call with
    | setRegBit r i v =>
      obtain ⟨rfl, hr⟩ | ⟨rfl, hi⟩ | ⟨rfl, rfl, rfl⟩ | ⟨rfl, hv⟩ := State.access_setRegBit_fault_cases hu ht
      · exact ⟨r, hr, .inl ⟨i, v, rfl⟩⟩
      · exact ⟨i, hi, .inl ⟨r, v, rfl⟩⟩
      · exact .inl ⟨v, rfl⟩
      · exact ⟨v, hv, .inl ⟨r, i, rfl⟩⟩
    | getRegBit r i =>
      obtain ⟨rfl, hr⟩ | ⟨rfl, hi⟩ := State.access_getRegBit_fault_cases hu ht
      · exact ⟨r, hr, .inr (.inl ⟨i, rfl⟩)⟩
      · exact ⟨i, hi, .inr (.inl ⟨r, rfl⟩)⟩
    | setFlag f v =>
      obtain ⟨rfl, hf⟩ | ⟨rfl, rfl⟩ | ⟨rfl, hv⟩ := State.access_setFlag_fault_cases hu ht
      · exact ⟨f, hf, .inr (.inr (.inl ⟨v, rfl⟩))⟩
      · exact .inr (.inl ⟨v, rfl⟩)
      · exact ⟨v, hv, .inr ⟨f, rfl⟩⟩
    | getFlag f =>
      obtain ⟨rfl, hf⟩ | ⟨rfl, rfl⟩ := State.access_getFlag_fault_cases hu ht
      · exact ⟨f, hf, .inr (.inr (.inr rfl))⟩
      · exact .inr (.inr rfl)
    | setRegByte r b =>
      obtain ⟨rfl, hr⟩ | ⟨q, hq⟩ := State.access_register_cases rfl ht
      · exact ⟨r, hr, .inr (.inr (.inl ⟨b, rfl⟩))⟩
      · simp [State.access_setRegByte _ hq, hs] at ht
    | getRegByte r =>
      obtain ⟨rfl, hr⟩ | ⟨q, hq⟩ := State.access_register_cases rfl ht
      · exact ⟨r, hr, .inr (.inr (.inr rfl))⟩
      · simp [State.access_getRegByte _ hq, hs] at ht

/-! A halted block (R119). -/

/-- Settles O12: a halted block answers a fault or a refusal. -/
theorem haltedBlockMakesNoStep : Obligations.HaltedBlockMakesNoStep := by
  intro s t code hs
  rw [step_faulted hs]
  exact halted_ne_next code s t

/-- Settles O13: the presentation list decides which of the two stops it is. -/
theorem haltedBlockStopsByName : Obligations.HaltedBlockStopsByName := by
  intro s code hs
  rw [step_faulted hs, halted]
  cases s.inbox with
  | nil => exact ⟨fun _ => rfl, fun hne => absurd rfl hne⟩
  | cons e rest => exact ⟨fun hnil => (List.cons_ne_nil e rest hnil).elim, fun _ => rfl⟩

/-- Settles O60: the read-out is made of the six registers. -/
theorem diagnosticsReadOutShowsTheRegisters : Obligations.DiagnosticsReadOutShowsTheRegisters :=
  fun _ => ⟨rfl, rfl, rfl, rfl, rfl, rfl⟩

end Sys2Proof.Machine
end

section
/-! PROOFS for 70_reset_and_hazards.md R129 to R132: the idle block, the state at creation, and RESET as a return to it. -/
namespace Sys2Proof.Machine

open Sys2Proof Sys2Proof.Claims

/-- Settles O5: with nothing presented the step is the idle one. -/
theorem idleBlockKeepsItsState : Obligations.IdleBlockKeepsItsState :=
  fun _ hs hinbox => step_nothing_presented hs hinbox

/-- Settles O1: bit 5, the one bit of 0x20 that is set, is no flag, and no byte of memory is listed. -/
theorem creationStateHoldsSpecifiedValues : Obligations.CreationStateHoldsSpecifiedValues := by
  refine ⟨rfl, rfl, rfl, rfl, rfl, rfl, fun f => ?_, fun _ => rfl, rfl⟩
  cases f <;> rfl

/-- A run begins with its first step. -/
theorem run_succ_of_step {s t : State} (h : step s = .next t) (n : Nat) :
    Host.Core.run core (n + 1) s = Host.Core.run core n t := by
  have hcore : core.step s = .next t := h
  simp only [Host.Core.run, hcore]

/-- Settles O2: the step of RESET answers the state at creation, so the run goes on from there. -/
theorem resetCannotBeToldFromCreation : Obligations.ResetCannotBeToldFromCreation := by
  rintro s rest ⟨hs, hinbox⟩
  have hstep : step s = .next { State.reset with inbox := rest } := step_presented hs hinbox
  exact ⟨hstep, run_succ_of_step hstep⟩

end Sys2Proof.Machine
end
